-- ==== Sys2Proof/Word.lean ====
section
/-! DEFINITION. The one word of the core: every datum it moves is an unsigned 8-bit byte (00_scope.md R11, 20_memory.md R62).
Pointers are mathematical integers (R12) and need no word type. -/

namespace Sys2Proof

/-- A cell, a program byte, an input byte or an output byte (R11). -/
abbrev Byte := BitVec 8

end Sys2Proof
end

