-- ==== Sys2Proof/Syntax.lean ====
section
/-! DEFINITION. The instructions: one constructor per row of spec/opcode_table.json (30_encoding.md R81). -/

namespace Sys2Proof

/-- One instruction. No instruction has an operand (R84); the NOP row stands for 248 byte values (R85, 45_default.md R190),
so its constructor keeps the byte it was, which only the encoder looks at. -/
inductive Instr where
  /-- `<`, PTR_DEC (R130) -/
  | ptrDec
  /-- `>`, PTR_INC (R131) -/
  | ptrInc
  /-- `-`, CELL_DEC (R140) -/
  | cellDec
  /-- `+`, CELL_INC (R141) -/
  | cellInc
  /-- `[`, LOOP_OPEN (R160) -/
  | loopOpen
  /-- `]`, LOOP_CLOSE (R161) -/
  | loopClose
  /-- `,`, IN (R180) -/
  | input
  /-- `.`, OUT (R181) -/
  | output
  /-- any other byte, NOP (R190) -/
  | nop (byte : Byte)
  deriving DecidableEq, Repr

end Sys2Proof
end

