-- ==== Sys2Proof/WellFormed.lean ====
section
/-! DEFINITION. Which terms of the syntax are instructions: the byte of a NOP is none of the eight recognized ones
(30_encoding.md R81, R85; 45_default.md R190). -/

namespace Sys2Proof

/-- The eight recognized instruction bytes, in the order of the table of R81. -/
def recognizedBytes : List Byte :=
  [0x3C, 0x3E, 0x2D, 0x2B, 0x5B, 0x5D, 0x2C, 0x2E]

/-- An instruction as the opcode table admits it: the default row excludes the eight recognized bytes. -/
def Instr.wf : Instr → Bool
  | .ptrDec => true
  | .ptrInc => true
  | .cellDec => true
  | .cellInc => true
  | .loopOpen => true
  | .loopClose => true
  | .input => true
  | .output => true
  | .nop byte => !recognizedBytes.contains byte

end Sys2Proof
end

