-- ==== Sys2Proof/Decode.lean ====
section
/-! DEFINITION. The decoder and, after it, the encoder (30_encoding.md R80 to R89). One format, B8: the whole byte is the
opcode. Decoding compares all eight bits (R82) and is total on bytes (R85); only an empty byte list is rejected, by name. -/

namespace Sys2Proof

/-- Why no instruction can be read from a list of bytes. -/
inductive DecodeError where
  /-- There is no byte left. Raised by `decode` alone; the core never asks for it, since it halts at the program's end (R111). -/
  | endOfBytes
  deriving DecidableEq, Repr

/-- The decoder of R89: exact byte values, everything else NOP. -/
def decodeByte (b : Byte) : Instr :=
  if b = 0x3C then .ptrDec
  else if b = 0x3E then .ptrInc
  else if b = 0x2D then .cellDec
  else if b = 0x2B then .cellInc
  else if b = 0x5B then .loopOpen
  else if b = 0x5D then .loopClose
  else if b = 0x2C then .input
  else if b = 0x2E then .output
  else .nop b

/-- One instruction from the front of a byte list, with the bytes after it: every instruction is one byte (R80, R86). -/
def decode : List Byte → Except DecodeError (Instr × List Byte)
  | [] => .error .endOfBytes
  | b :: rest => .ok (decodeByte b, rest)

/-- A whole program text, byte by byte (R87). -/
def decodeProgram : List Byte → List Instr
  | [] => []
  | b :: rest => decodeByte b :: decodeProgram rest

/-- The byte of an instruction, from the table of R81; a NOP is the byte it was. -/
def encodeByte : Instr → Byte
  | .ptrDec => 0x3C
  | .ptrInc => 0x3E
  | .cellDec => 0x2D
  | .cellInc => 0x2B
  | .loopOpen => 0x5B
  | .loopClose => 0x5D
  | .input => 0x2C
  | .output => 0x2E
  | .nop byte => byte

/-- The bytes of an instruction: exactly one (R80). -/
def encode (i : Instr) : List Byte := [encodeByte i]

/-- The bytes of a program: its instructions' bytes one after another (R87). -/
def encodeProgram : List Instr → List Byte
  | [] => []
  | i :: rest => encode i ++ encodeProgram rest

/-- The bytes of an instruction word as spec/opcode_table.json numbers its bits (bit 0 the least significant bit of the
first byte): an instruction of this core has one byte, and bits from `nbits` up are 0. -/
def tableBytes (nbits w : Nat) : List Byte := [BitVec.ofNat 8 (w % 2 ^ nbits)]

/-- The instruction the decoder reads from a word of the opcode table. -/
def decodeTableWord (nbits w : Nat) : Option Instr :=
  match decode (tableBytes nbits w) with
  | .ok (i, _) => some i
  | .error _ => none

end Sys2Proof
end

