-- ==== Sys2Proof/Config.lean ====
section
/-! DEFINITION. What a realization fixes: the parameters of 00_scope.md R10, R12, R13. They are arguments of the model and
not state of the core (10_state.md R20); State carries them because exec has no other argument (log 1). No value of this
spec is a free one: no instruction leaves a result undefined. -/

namespace Sys2Proof

/-- The configuration of a core instance. `none` is "unbounded". -/
structure Config where
  /-- `MEM_SIZE`, the number of tape cells (R10). -/
  memSize : Nat
  /-- `PTR_RANGE`, where finite the list of the values `mem_ptr` can hold (R12, 10_state.md R22; D4). -/
  ptrRange : Option (List Int)
  /-- `CODE_MAX`, the largest program START accepts (R13; D6). -/
  codeMax : Option Nat
  /-- `INPUT_MAX`, the largest input START accepts (R13; D7). -/
  inputMax : Option Nat
  /-- `OUT_CAP`, the output capacity (R13, 20_memory.md R61; D8). -/
  outCap : Option Nat
  deriving DecidableEq, Repr

/-- The defaults: 4096 cells (R10) and nothing else bounded (R12, R13). -/
def Config.standard : Config :=
  { memSize := 4096, ptrRange := none, codeMax := none, inputMax := none, outCap := none }

/-- The premise `MEM_SIZE >= 1`: without it no core exists (R10; D9; log 2). -/
def Config.wf (c : Config) : Bool := decide (1 ≤ c.memSize)

end Sys2Proof
end

