-- ==== Sys2Proof/Machine/State.lean ====
section
/-! DEFINITION. The state of the core: the record of 10_state.md R20, field by field, with the configuration beside it
(log 1), its power-up value (R39, 70_reset_and_hazards.md R231), and the reasons a step can end. -/

namespace Sys2Proof.Machine

open Sys2Proof

/-- `status` (R32). The reserved values 5 to 7 are never held, so the type lacks them (U12). -/
inductive Status where
  /-- 0 IDLE: no run started since power-up -/
  | idle
  /-- 1 RUNNING: the execution loop steps -/
  | running
  /-- 2 HALTED: the run ended normally -/
  | halted
  /-- 3 FAULT: a fault ended the run -/
  | fault
  /-- 4 STOPPED: the host aborted the run -/
  | stopped
  deriving DecidableEq, Repr

/-- `cause` (R33). -/
inductive Cause where
  /-- 0 NONE -/
  | none
  /-- 1 MEM_BOUNDS -/
  | memBounds
  /-- 2 UNBALANCED -/
  | unbalanced
  /-- 3 RESOURCE_LIMIT -/
  | resourceLimit
  deriving DecidableEq, Repr

/-- The direction of a bracket scan (43_loop.md R150). -/
inductive Dir where
  /-- `dir = +1`, the search of `[` for its `]` -/
  | forward
  /-- `dir = -1`, the search of `]` for its `[` -/
  | backward
  deriving DecidableEq, Repr

/-- The capacity that a RESOURCE_LIMIT fault reports (10_state.md R34, 60_exceptions.md R203). -/
inductive Resource where
  /-- the cursor would leave a finite `PTR_RANGE` -/
  | pointer
  /-- `output` holds `OUT_CAP` bytes -/
  | output
  deriving DecidableEq, Repr

/-- What a step raises: the `E(info)` of the primitive `raise` (00_scope.md R17). -/
inductive Raised where
  /-- `MemBounds(a)`: a tape access at index `a` outside the tape (60_exceptions.md R201) -/
  | memBounds (index : Int)
  /-- `Unbalanced(dir)`: a scan in direction `dir` left the program (R202) -/
  | unbalanced (dir : Dir)
  /-- `ResourceLimit(k)`: a finite capacity is exceeded (R203) -/
  | resourceLimit (which : Resource)
  deriving DecidableEq, Repr

/-- Where the model stops because the spec gives no effect. The core's own faults are not here: their entry is a next
state (60_exceptions.md R204). Neither of these is met in a state that satisfies the invariant `CoreInv` of Safety.lean. -/
inductive Fault where
  /-- Raised by `transition` at RUNNING with `code_ptr < 0`: no byte stands there, and R23 and R101 say it never happens.
  Safe: the model stops (log 4). -/
  | fetchBelowProgram
  /-- Raised by `execIn` with `input_ptr < 0`: R58 defines the input read at `0 <= i < L` only, and R24 says another one
  never happens. Safe: the model stops (log 5). -/
  | inputReadOutsideStream
  deriving DecidableEq, Repr

/-- Where the model gives no meaning. -/
inductive Refusal where
  /-- Raised by `exec` for an instruction that has no meaning yet (none is left in this model). Safe. -/
  | notModelled (mnemonic : String)
  /-- Raised by `transition` and `applyHost` for a configuration with `MEM_SIZE = 0`, for which no core exists
  (00_scope.md R10; D9; log 2). Safe. -/
  | noSuchCore
  deriving DecidableEq, Repr

/-- Why the step engine gives no `Ok(s')` (40_step_engine.md R100): a fault of the core, or a stop of the model. -/
inductive StepStop where
  /-- the spec's `Fault(cause, arg)` -/
  | raised (what : Raised)
  /-- a read that the spec says never happens -/
  | stuck (why : Fault)
  deriving DecidableEq, Repr

/-- The step engine's `Outcome` (R100) and the outcome of each access primitive of 00_scope.md R17. -/
abbrev StepResult := Except StepStop

/-- The tape's contents: address and byte, addresses strictly rising, none listed that holds what an unlisted cell reads
as. `Memory.wf` of Machine/Ops.lean says so. -/
abbrev Memory := List Host.Cell

/-- The state of the core (10_state.md R20). -/
structure State where
  /-- the parameters of this core instance; no operation writes it (00_scope.md R10 to R13; log 1) -/
  config : Config
  /-- `code`, the program, of length `N`; read only during a run (R28) -/
  code : List Byte
  /-- `inputs`, the input bytes, of length `L`; read only during a run (R26) -/
  inputs : List Byte
  /-- `code_ptr`, the program counter (R21) -/
  codePtr : Int
  /-- `mem_ptr`, the tape cursor (R22) -/
  memPtr : Int
  /-- `input_ptr`, the index of the next unread input byte (R24) -/
  inputPtr : Int
  /-- `mem`, the tape (R25) -/
  mem : Memory
  /-- `output`, append only (R27) -/
  output : List Byte
  /-- `status` (R32) -/
  status : Status
  /-- `cause` (R33) -/
  cause : Cause
  /-- `fault_pc` (R34) -/
  faultPc : Int
  /-- `fault_arg` (R34) -/
  faultArg : Int
  deriving DecidableEq, Repr

/-- The power-up state of a core with the given parameters: R39's first column. -/
def State.powerUp (config : Config) : State :=
  { config := config
    code := []
    inputs := []
    codePtr := 0
    memPtr := (config.memSize / 2 : Nat)
    inputPtr := 0
    mem := []
    output := []
    status := .idle
    cause := .none
    faultPc := 0
    faultArg := 0 }

/-- The machine right after reset: the power-up state of the default configuration (R39, R231, D20). -/
def State.reset : State := State.powerUp Config.standard

end Sys2Proof.Machine
end

