-- ==== Sys2Proof/Machine/Ops.lean ====
section
/-! DEFINITION. The named operations over the tape, the streams and the registers (00_scope.md R16, R17; 20_memory.md), and
taking a fault (60_exceptions.md R204) as one shared operation. There is no return from a fault: only START leaves FAULT
(R205; Machine/HostInterface.lean). -/

namespace Sys2Proof.Machine

open Sys2Proof

/-! ### The tape as data -/

/-- What a cell that is not listed holds: START and power-up leave every cell 0 (10_state.md R39, 70_reset_and_hazards.md R230). -/
def blankCell : Byte := 0

/-- The byte at an address. -/
def Memory.read : Memory → Nat → Byte
  | [], _ => blankCell
  | (k, v) :: rest, a => if k = a then v else Memory.read rest a

/-- List a byte at an address, in order. -/
def Memory.put : Memory → Nat → Byte → Memory
  | [], a, v => [(a, v)]
  | (k, w) :: rest, a, v =>
    if a < k then (a, v) :: (k, w) :: rest
    else if a = k then (a, v) :: rest
    else (k, w) :: Memory.put rest a v

/-- Take an address off the list. -/
def Memory.erase : Memory → Nat → Memory
  | [], _ => []
  | (k, w) :: rest, a => if k = a then Memory.erase rest a else (k, w) :: Memory.erase rest a

/-- Replace the byte at an address; a blank one leaves the list, so that equal tapes are equal lists. -/
def Memory.write (m : Memory) (a : Nat) (v : Byte) : Memory :=
  if v = blankCell then m.erase a else m.put a v

/-- The canonical form, all addresses at least `lo`. -/
def Memory.wfFrom : Nat → Memory → Bool
  | _, [] => true
  | lo, (k, v) :: rest => decide (lo ≤ k) && decide (v ≠ blankCell) && Memory.wfFrom (k + 1) rest

/-- The canonical form: addresses strictly rising, no entry blank. -/
def Memory.wf (m : Memory) : Bool := Memory.wfFrom 0 m

/-- Every listed address is a cell of a tape with `size` cells (20_memory.md R51). -/
def Memory.within (m : Memory) (size : Nat) : Bool := m.all fun cell => decide (cell.1 < size)

/-! ### The access primitives -/

/-- The bounds condition `0 <= a < MEM_SIZE` (20_memory.md R54). -/
abbrev onTape (config : Config) (a : Int) : Prop := 0 ≤ a ∧ a < config.memSize

/-- `MemRead(a, 1)` (R52). -/
def memRead (s : State) (a : Int) : StepResult Byte :=
  if onTape s.config a then .ok (s.mem.read a.toNat) else .error (.raised (.memBounds a))

/-- The state with another tape. -/
def State.setMem (s : State) (m : Memory) : State := { s with mem := m }

/-- `MemWrite(a, 1, v)` (R53). -/
def memWrite (s : State) (a : Int) (v : Byte) : StepResult State :=
  if onTape s.config a then .ok (s.setMem (s.mem.write a.toNat v)) else .error (.raised (.memBounds a))

/-- The byte of a sequence at an integer index, `none` outside it (00_scope.md R18). -/
def byteAt (bytes : List Byte) (p : Int) : Option Byte :=
  if 0 ≤ p then bytes[p.toNat]? else none

/-- `CodeRead(p)` (R56), with the check `0 <= p < N` that both its callers make: `none` outside the program. -/
def codeRead (code : List Byte) (p : Int) : Option Byte := byteAt code p

/-- `InRead(i)` (R58), for `0 <= i < L`; outside the stream the spec defines nothing (log 5). -/
def inRead (s : State) (i : Int) : StepResult Byte :=
  match byteAt s.inputs i with
  | some v => .ok v
  | none => .error (.stuck .inputReadOutsideStream)

/-- The state with one more output byte. -/
def State.pushOutput (s : State) (v : Byte) : State := { s with output := s.output ++ [v] }

/-- `OUT_CAP` is finite and `output` holds that many bytes (R61, 44_io.md R181). -/
def outputFull (s : State) : Bool :=
  match s.config.outCap with
  | none => false
  | some cap => decide (cap ≤ s.output.length)

/-- `OutAppend(v)` (R60, R61). -/
def outAppend (s : State) (v : Byte) : StepResult State :=
  if outputFull s then .error (.raised (.resourceLimit .output)) else .ok (s.pushOutput v)

/-! ### The registers -/

/-- `PTR_RANGE` is unbounded, or holds `p` (10_state.md R22). -/
def cursorFits (config : Config) (p : Int) : Bool :=
  match config.ptrRange with
  | none => true
  | some values => decide (p ∈ values)

/-- The state with another cursor. -/
def State.setCursor (s : State) (p : Int) : State := { s with memPtr := p }

/-- `mem_ptr <- mem_ptr + delta`, without wrap and without a check of the tape's bounds (41_pointer.md R130, R131). -/
def moveCursor (s : State) (delta : Int) : StepResult State :=
  if cursorFits s.config (s.memPtr + delta) then .ok (s.setCursor (s.memPtr + delta))
  else .error (.raised (.resourceLimit .pointer))

/-- `code_ptr <- code_ptr + 1` (40_step_engine.md R103). -/
def State.advance (s : State) : State := { s with codePtr := s.codePtr + 1 }

/-- `code_ptr <- q + 1`: one past a matching bracket (R103). -/
def State.jumpPast (s : State) (q : Int) : State := { s with codePtr := q + 1 }

/-- `input_ptr <- input_ptr + 1` (44_io.md R180). -/
def State.bumpInput (s : State) : State := { s with inputPtr := s.inputPtr + 1 }

/-! ### Faults -/

/-- A direction as the number `dir` (43_loop.md R150). -/
def Dir.step : Dir → Int
  | .forward => 1
  | .backward => -1

/-- The cause a fault records (10_state.md R33). -/
def Raised.cause : Raised → Cause
  | .memBounds _ => .memBounds
  | .unbalanced _ => .unbalanced
  | .resourceLimit _ => .resourceLimit

/-- The detail a fault records (10_state.md R34). -/
def Raised.arg : Raised → Int
  | .memBounds index => index
  | .unbalanced dir => dir.step
  | .resourceLimit .pointer => 0
  | .resourceLimit .output => 1

/-- Fault entry (60_exceptions.md R204): the fault record and the status, nothing else. -/
def State.takeFault (s : State) (what : Raised) : State :=
  { s with status := .fault, cause := what.cause, faultPc := s.codePtr, faultArg := what.arg }

/-- The end of a step that began in `s` (40_step_engine.md R106, R111): a committed state whole, or none of its writes and
the fault's entry. -/
def settle (s : State) : StepResult State → Host.Outcome State Fault Refusal
  | .ok t => .next t
  | .error (.raised what) => .next (s.takeFault what)
  | .error (.stuck why) => .fault why

/-! ### The execution loop and the host -/

/-- The halt transition (R111): only `status` changes. -/
def State.halt (s : State) : State := { s with status := .halted }

/-- ABORT's effect (60_exceptions.md R211): only `status` changes. -/
def State.stop (s : State) : State := { s with status := .stopped }

/-- The program with the given bytes placed from index `p` on; a gap before them is filled with 0x00 (log 9). -/
def placeBytes (code : List Byte) (p : Nat) (bytes : List Byte) : List Byte :=
  code.take p ++ List.replicate (p - code.length) 0 ++ bytes ++ code.drop (p + bytes.length)

/-- The state in which the next step runs the given instruction bytes: in the program at `code_ptr`, status RUNNING (log 9). -/
def loadForFetch (s : State) (bytes : List Byte) : State :=
  { s with code := placeBytes s.code s.codePtr.toNat bytes, codePtr := (s.codePtr.toNat : Int), status := .running }

end Sys2Proof.Machine
end

