-- ==== Sys2Proof/Machine/Operands.lean ====
section
/-! DEFINITION. The operand forms: every operand is implicit (30_encoding.md R84). The tape operand is `mem[mem_ptr]`, the
input operand `inputs[input_ptr]`; the pointer operand is `moveCursor` of Machine/Ops.lean and the jump target is the
bracket resolver's (Machine/Resolver.lean). -/

namespace Sys2Proof.Machine

open Sys2Proof

/-- The tape operand read: `MemRead(mem_ptr, 1)`. -/
def currentCell (s : State) : StepResult Byte := memRead s s.memPtr

/-- The tape operand written: `MemWrite(mem_ptr, 1, v)`. -/
def storeCell (s : State) (v : Byte) : StepResult State := memWrite s s.memPtr v

/-- The test `input_ptr < L` (44_io.md R180). -/
abbrev inputRemains (s : State) : Prop := s.inputPtr < s.inputs.length

/-- The input operand: `InRead(input_ptr)`. -/
def nextInput (s : State) : StepResult Byte := inRead s s.inputPtr

end Sys2Proof.Machine
end

