-- ==== Sys2Proof/Machine/CellArith.lean ====
section
/-! DEFINITION. The cell arithmetic instructions (42_cell_arith.md): +1 and -1 modulo 256, no flag. -/

namespace Sys2Proof.Machine

open Sys2Proof

/-- CELL_DEC, `-` (R140). -/
def execCellDec (s : State) : Host.Outcome State Fault Refusal :=
  settle s do
    let v ← currentCell s
    let t ← storeCell s (v - 1)
    pure t.advance

/-- CELL_INC, `+` (R141). -/
def execCellInc (s : State) : Host.Outcome State Fault Refusal :=
  settle s do
    let v ← currentCell s
    let t ← storeCell s (v + 1)
    pure t.advance

end Sys2Proof.Machine
end

