-- ==== Sys2Proof/Machine/Default.lean ====
section
/-! DEFINITION. The default instruction (45_default.md). -/

namespace Sys2Proof.Machine

open Sys2Proof

/-- NOP, every other byte (R190): only `code_ptr` advances. -/
def execNop (s : State) : Host.Outcome State Fault Refusal :=
  settle s (pure s.advance)

end Sys2Proof.Machine
end

