-- ==== Sys2Proof/Machine/Io.lean ====
section
/-! DEFINITION. The input and output instructions (44_io.md). -/

namespace Sys2Proof.Machine

open Sys2Proof

/-- IN, `,` (R180). Exhausted input is no fault: the cell is overwritten with 0. -/
def execIn (s : State) : Host.Outcome State Fault Refusal :=
  settle s
    (if inputRemains s then do
      let v ← nextInput s
      let t ← storeCell s v
      pure t.bumpInput.advance
    else do
      let t ← storeCell s 0
      pure t.advance)

/-- OUT, `.` (R181). The cell is read first, so MEM_BOUNDS comes before RESOURCE_LIMIT (60_exceptions.md R207). -/
def execOut (s : State) : Host.Outcome State Fault Refusal :=
  settle s do
    let v ← currentCell s
    let t ← outAppend s v
    pure t.advance

end Sys2Proof.Machine
end

