-- ==== Sys2Proof/Machine/Flags.lean ====
section
/-! DEFINITION. The core has no flags (10_state.md R30): the two brackets test their cell afresh each time, and the result of
the test is stored nowhere. The arithmetic writes no carry and no overflow (42_cell_arith.md R142). -/

namespace Sys2Proof.Machine

open Sys2Proof

/-- The zero test of a cell value, `v == 0`. -/
def cellIsZero (v : Byte) : Bool := decide (v = 0)

end Sys2Proof.Machine
end

