-- ==== Sys2Proof/Machine/Resolver.lean ====
section
/-! DEFINITION. The bracket resolver `Match(p0, dir)` (43_loop.md R150 to R157). It reads the program and nothing else and
writes nothing (R157); its registers live inside one step (10_state.md R36; log 6). No table is kept (D15). -/

namespace Sys2Proof.Machine

open Sys2Proof

/-- The resolver's registers during a scan (R36, R152). -/
structure Scan where
  /-- the scan position -/
  pos : Int
  /-- the nesting counter -/
  depth : Int
  /-- the direction -/
  dir : Dir
  deriving DecidableEq, Repr

/-- What one byte adds to the nesting counter (R151, R153). -/
def bracketDelta (b : Byte) (dir : Dir) : Int :=
  if b = 0x5B then dir.step
  else if b = 0x5D then -dir.step
  else 0

/-- The scan's first registers: the counter at 1, one position past the start (R152). -/
def startScan (p0 : Int) (dir : Dir) : Scan := { pos := p0 + dir.step, depth := 1, dir := dir }

/-- The registers after the byte at `pos` was counted and left behind. -/
def Scan.count (sc : Scan) (b : Byte) : Scan :=
  { sc with depth := sc.depth + bracketDelta b sc.dir, pos := sc.pos + sc.dir.step }

/-- The scan loop of R152, at most `rounds` rounds. `none` is "the scan left the program". -/
def scanFrom (code : List Byte) : Nat → Scan → Option Int
  | 0, _ => none
  | rounds + 1, sc =>
    match codeRead code sc.pos with
    | none => none
    | some b => if sc.depth + bracketDelta b sc.dir = 0 then some sc.pos else scanFrom code rounds (sc.count b)

/-- `Match(p0, dir)`, `none` where it raises `Unbalanced(dir)`. At most `N` positions are examined and the next round ends
the scan (R156), so `N + 1` rounds are enough (log 7). -/
def matchBracket (code : List Byte) (p0 : Int) (dir : Dir) : Option Int :=
  scanFrom code (code.length + 1) (startScan p0 dir)

/-- The resolver as a bracket step calls it (R150): from `code_ptr`, raising `Unbalanced(dir)` (R155). -/
def resolveBracket (s : State) (dir : Dir) : StepResult Int :=
  match matchBracket s.code s.codePtr dir with
  | some q => .ok q
  | none => .error (.raised (.unbalanced dir))

/-- The nesting counter after the first `k` positions of a scan were counted, for statements about `matchBracket`; a
position outside the program counts nothing. -/
def depthAfter (code : List Byte) (p0 : Int) (dir : Dir) : Nat → Int
  | 0 => 1
  | k + 1 =>
    depthAfter code p0 dir k +
      match codeRead code (p0 + dir.step * (k + 1)) with
      | none => 0
      | some b => bracketDelta b dir

/-- How many of the first `k` positions of a scan hold a bracket (R154); a position outside the program holds none. -/
def bracketsScanned (code : List Byte) (p0 : Int) (dir : Dir) : Nat → Nat
  | 0 => 0
  | k + 1 =>
    bracketsScanned code p0 dir k +
      match codeRead code (p0 + dir.step * (k + 1)) with
      | none => 0
      | some b => if b = 0x5B ∨ b = 0x5D then 1 else 0

end Sys2Proof.Machine
end

