-- ==== Sys2Proof/Machine/LoopInstr.lean ====
section
/-! DEFINITION. The loop instructions (43_loop.md). The cell is read before any scan (40_step_engine.md R105), and a scan runs
only for a jump that is taken (R163). -/

namespace Sys2Proof.Machine

open Sys2Proof

/-- LOOP_OPEN, `[` (R160). -/
def execLoopOpen (s : State) : Host.Outcome State Fault Refusal :=
  settle s do
    let v ← currentCell s
    if cellIsZero v then
      let q ← resolveBracket s .forward
      pure (s.jumpPast q)
    else pure s.advance

/-- LOOP_CLOSE, `]` (R161). -/
def execLoopClose (s : State) : Host.Outcome State Fault Refusal :=
  settle s do
    let v ← currentCell s
    if cellIsZero v then pure s.advance
    else
      let q ← resolveBracket s .backward
      pure (s.jumpPast q)

end Sys2Proof.Machine
end

