-- ==== Sys2Proof/Machine/Pointer.lean ====
section
/-! DEFINITION. The pointer instructions (41_pointer.md). -/

namespace Sys2Proof.Machine

open Sys2Proof

/-- PTR_DEC, `<` (R130). It reads no cell, so it never raises MEM_BOUNDS. -/
def execPtrDec (s : State) : Host.Outcome State Fault Refusal :=
  settle s do
    let t ← moveCursor s (-1)
    pure t.advance

/-- PTR_INC, `>` (R131). -/
def execPtrInc (s : State) : Host.Outcome State Fault Refusal :=
  settle s do
    let t ← moveCursor s 1
    pure t.advance

end Sys2Proof.Machine
end

