-- ==== Sys2Proof/Machine/Dispatch.lean ====
section
/-! DEFINITION. The step engine's dispatch (40_step_engine.md R102): one handler per instruction. -/

namespace Sys2Proof.Machine

open Sys2Proof

/-- The effect of one instruction. -/
def exec (i : Instr) (s : State) : Host.Outcome State Fault Refusal :=
  match i with
  | .ptrDec => Sys2Proof.Machine.execPtrDec s
  | .ptrInc => Sys2Proof.Machine.execPtrInc s
  | .cellDec => Sys2Proof.Machine.execCellDec s
  | .cellInc => Sys2Proof.Machine.execCellInc s
  | .loopOpen => Sys2Proof.Machine.execLoopOpen s
  | .loopClose => Sys2Proof.Machine.execLoopClose s
  | .input => Sys2Proof.Machine.execIn s
  | .output => Sys2Proof.Machine.execOut s
  | .nop _ => Sys2Proof.Machine.execNop s

end Sys2Proof.Machine
end

