-- ==== Sys2Proof/Machine/Transition.lean ====
section
/-! DEFINITION. The execution loop's transition (40_step_engine.md R101, R111, R114). -/

namespace Sys2Proof.Machine

open Sys2Proof

/-- Fetch and decode at `code_ptr` (R101, R102); `none` where no program byte stands there. -/
def fetch (s : State) : Option Instr := (codeRead s.code s.codePtr).map decodeByte

/-- The loop test `code_ptr >= N` (R111). -/
abbrev atEnd (s : State) : Prop := (s.code.length : Int) ≤ s.codePtr

/-- One iteration of the loop in RUNNING (R111). -/
def loopIteration (s : State) : Host.Outcome State Fault Refusal :=
  if atEnd s then .next s.halt
  else
    match fetch s with
    | some i => exec i s
    | none => .fault .fetchBelowProgram

/-- One step of the machine: a transition in RUNNING, nothing at all in a quiescent status (R111, R114; log 3), no meaning
for a configuration that has no core (00_scope.md R10; log 2). -/
def transition (s : State) : Host.Outcome State Fault Refusal :=
  if s.config.wf then
    match s.status with
    | .running => loopIteration s
    | .idle => .next s
    | .halted => .next s
    | .fault => .next s
    | .stopped => .next s
  else .refused .noSuchCore

end Sys2Proof.Machine
end

