-- ==== Sys2Proof/Machine/Step.lean ====
section
/-! DEFINITION. The step of the machine, and the placing of one instruction where the next step fetches it. -/

namespace Sys2Proof.Machine

open Sys2Proof

/-- One transition of the execution loop (40_step_engine.md R111). -/
def step (s : State) : Host.Outcome State Fault Refusal := transition s

/-- The state whose next step fetches and runs the given word of the opcode table (log 9). -/
def State.withFetchWord (s : State) (nbits w : Nat) : State := loadForFetch s (tableBytes nbits w)

end Sys2Proof.Machine
end

