-- ==== Sys2Proof/Machine/HostInterface.lean ====
section
/-! DEFINITION. The host interface (10_state.md R40): START, RUN, STEP, ABORT, the reads, and the result of a run. The host
acts between two transitions only and has no operation that writes the state of a run (70_reset_and_hazards.md R242). -/

namespace Sys2Proof.Machine

open Sys2Proof

/-! ### START -/

/-- A length is within a bound that may be absent. -/
def withinBound (bound : Option Nat) (n : Nat) : Bool :=
  match bound with
  | none => true
  | some most => decide (n ≤ most)

/-- START is accepted (R234): neither the program nor the input is too long. -/
def startAccepted (config : Config) (codeIn inputIn : List Byte) : Bool :=
  withinBound config.codeMax codeIn.length && withinBound config.inputMax inputIn.length

/-- The state that an accepted START leaves (R230; 10_state.md R39, second column). -/
def State.started (config : Config) (codeIn inputIn : List Byte) : State :=
  { config := config
    code := codeIn
    inputs := inputIn
    codePtr := 0
    memPtr := (config.memSize / 2 : Nat)
    inputPtr := 0
    mem := []
    output := []
    status := .running
    cause := .none
    faultPc := 0
    faultArg := 0 }

/-- START, in any status (R230, R232); a refused one changes no state and records no fault (R234). -/
def start (codeIn inputIn : List Byte) (s : State) : State :=
  if startAccepted s.config codeIn inputIn then State.started s.config codeIn inputIn else s

/-! ### RUN, STEP, ABORT -/

/-- RUN for `k` transitions, one after another (40_step_engine.md R112; log 8). A quiescent status stays as it is. -/
def runFor : Nat → State → Host.Outcome State Fault Refusal
  | 0, s => .next s
  | k + 1, s =>
    match step s with
    | .next t => runFor k t
    | .fault why => .fault why
    | .refused why => .refused why

/-- STEP: exactly one transition (60_exceptions.md R212); outside RUNNING nothing changes (R115). -/
def hostStep (s : State) : Host.Outcome State Fault Refusal := step s

/-- ABORT: in RUNNING, `status <- STOPPED` (R211); elsewhere nothing changes (R115). -/
def abort (s : State) : State := if s.status = .running then s.stop else s

/-- The operations of R40 that can change the state. -/
inductive HostOp where
  | start (codeIn inputIn : List Byte)
  | run (k : Nat)
  | step
  | abort
  deriving DecidableEq, Repr

/-- One host operation; none exists on a configuration without a core (00_scope.md R10; log 2). -/
def applyHost (op : HostOp) (s : State) : Host.Outcome State Fault Refusal :=
  if s.config.wf then
    match op with
    | .start codeIn inputIn => .next (start codeIn inputIn s)
    | .run k => runFor k s
    | .step => hostStep s
    | .abort => .next (abort s)
  else .refused .noSuchCore

/-- The host's operations one after another, as long as each answers a next state. -/
def applyHostAll : List HostOp → State → Host.Outcome State Fault Refusal
  | [], s => .next s
  | op :: rest, s =>
    match applyHost op s with
    | .next t => applyHostAll rest t
    | .fault why => .fault why
    | .refused why => .refused why

/-- How many transitions an operation asks for. -/
def HostOp.transitions : HostOp → Nat
  | .start _ _ => 0
  | .run k => k
  | .step => 1
  | .abort => 0

/-! ### Reads -/

/-- The 3-bit `status` register as the host reads it (10_state.md R32). -/
def statusBits : Status → BitVec 3
  | .idle => 0
  | .running => 1
  | .halted => 2
  | .fault => 3
  | .stopped => 4

/-- The 2-bit `cause` register as the host reads it (R33). -/
def causeBits : Cause → BitVec 2
  | .none => 0
  | .memBounds => 1
  | .unbalanced => 2
  | .resourceLimit => 3

/-- The control registers as the host reads them: `status`, `cause`, `fault_pc`, `fault_arg` (R35, R40). -/
def readControl (s : State) : BitVec 3 × BitVec 2 × Int × Int :=
  (statusBits s.status, causeBits s.cause, s.faultPc, s.faultArg)

/-- The whole `output` sequence (R40). -/
def readOutput (s : State) : List Byte := s.output

/-- The pointers of the debug view: `code_ptr`, `mem_ptr`, `input_ptr` (R40, 60_exceptions.md R217). -/
def readPointers (s : State) : Int × Int × Int := (s.codePtr, s.memPtr, s.inputPtr)

/-- One cell of the debug view of `mem` (R40); there is none outside the tape (log 11). -/
def readCell (s : State) (a : Int) : Option Byte :=
  if onTape s.config a then some (s.mem.read a.toNat) else none

/-! ### The end of a run -/

/-- What a run gives its host (40_step_engine.md R116). -/
inductive RunResult where
  /-- the output of a run that halted -/
  | output (bytes : List Byte)
  /-- the error of a run that faulted: `(cause, fault_pc, fault_arg)` -/
  | error (cause : Cause) (faultPc faultArg : Int)
  deriving DecidableEq, Repr

/-- The result of a run; none for a run that is aborted or not over (R116). -/
def runResult (s : State) : Option RunResult :=
  match s.status with
  | .halted => some (.output s.output)
  | .fault => some (.error s.cause s.faultPc s.faultArg)
  | .idle => none
  | .running => none
  | .stopped => none

/-- The step engine is called in this transition (R111): RUNNING, and not at the program's end. -/
def callsStep (s : State) : Bool := decide (s.status = .running) && !decide (atEnd s)

/-- The step count of the next `k` transitions (R119; log 10). The core does not store it. -/
def stepCount : Nat → State → Nat
  | 0, _ => 0
  | k + 1, s =>
    match step s with
    | .next t => (if callsStep s then 1 else 0) + stepCount k t
    | .fault _ => 0
    | .refused _ => 0

/-- The steps among them that committed, as spec/95_test_vectors.md counts a faulting run (log 10). -/
def committedSteps : Nat → State → Nat
  | 0, _ => 0
  | k + 1, s =>
    match step s with
    | .next t => (if callsStep s && decide (t.status = .running) then 1 else 0) + committedSteps k t
    | .fault _ => 0
    | .refused _ => 0

end Sys2Proof.Machine
end

