-- ==== Sys2Proof/Safety.lean ====
section
/-! DEFINITION. What the statements about the machine are written in: the invariant of the states a core can be in, the
states a host can bring it to, sequences of instructions, and what a safe run is. -/

namespace Sys2Proof.Machine

open Sys2Proof

/-! ### The invariant -/

/-- The fault record tells what happened (10_state.md R33, R34; 60_exceptions.md R201 to R204). -/
def faultRecordTrue (s : State) : Prop :=
  match s.cause with
  | .none => s.faultPc = 0 ∧ s.faultArg = 0
  | .memBounds => s.faultPc = s.codePtr ∧ s.faultArg = s.memPtr ∧ ¬ onTape s.config s.memPtr
  | .unbalanced => s.faultPc = s.codePtr ∧ (s.faultArg = 1 ∨ s.faultArg = -1)
  | .resourceLimit =>
    s.faultPc = s.codePtr ∧
      (s.faultArg = 0 ∧ s.config.ptrRange ≠ Option.none ∨ s.faultArg = 1 ∧ s.config.outCap = some s.output.length)

/-- What holds of a core at power-up and is kept by every transition and every host operation. -/
structure CoreInv (s : State) : Prop where
  /-- `MEM_SIZE >= 1` (00_scope.md R10) -/
  coreExists : s.config.wf = true
  /-- the tape is in canonical form -/
  tapeCanonical : s.mem.wf = true
  /-- the tape lists cells `0 .. MEM_SIZE-1` only (20_memory.md R51) -/
  tapeWithin : s.mem.within s.config.memSize = true
  /-- `0 <= code_ptr <= N` (10_state.md R23) -/
  codePtrRange : 0 ≤ s.codePtr ∧ s.codePtr ≤ s.code.length
  /-- `0 <= input_ptr <= L` (R24) -/
  inputPtrRange : 0 ≤ s.inputPtr ∧ s.inputPtr ≤ s.inputs.length
  /-- program and input are within `CODE_MAX` and `INPUT_MAX` (70_reset_and_hazards.md R234) -/
  loadedWithin : startAccepted s.config s.code s.inputs = true
  /-- `output` is within `OUT_CAP` (20_memory.md R61) -/
  outputWithin : withinBound s.config.outCap s.output.length = true
  /-- `cause` is non-zero exactly when `status = FAULT` (R33) -/
  causeIffFault : s.cause ≠ .none ↔ s.status = .fault
  /-- the fault record is the faulting instruction's (R34) -/
  faultRecord : faultRecordTrue s
  /-- a run halts at the program's end only (40_step_engine.md R111) -/
  haltedAtEnd : s.status = .halted → s.codePtr = s.code.length
  /-- a faulted run stands at an instruction of the program (60_exceptions.md R204) -/
  faultInProgram : s.status = .fault → s.codePtr < s.code.length
  /-- an idle core is as it was at power-up (10_state.md R39) -/
  idleAsPoweredUp : s.status = .idle → s = State.powerUp s.config

/-! ### What a host can do -/

/-- The states of a core with the given parameters: power-up, and what the host's operations lead to (R40). -/
inductive Reachable (config : Config) : State → Prop where
  | powerUp : Reachable config (State.powerUp config)
  | host (op : HostOp) {s t : State} : Reachable config s → applyHost op s = .next t → Reachable config t

/-! ### Sequences of instructions -/

/-- The handlers of a list of instructions one after another, as long as each gives a next state. The program is not
looked at: this says what the instructions do, wherever they stand. -/
def execAll : List Instr → State → Host.Outcome State Fault Refusal
  | [], s => .next s
  | i :: rest, s =>
    match exec i s with
    | .next t => execAll rest t
    | .fault why => .fault why
    | .refused why => .refused why

/-! ### Loops -/

/-- `LoopRuns p q s t`: the loop `while mem[mem_ptr] != 0 do B` of a bracket pair at `p` and `q` (43_loop.md R162), its test
made in `s`, is left in `t`. The body `B` is run from its first byte `p + 1` until control first comes to `q`; the cell
tested is the one under the cursor at the moment of each test. -/
inductive LoopRuns (p q : Int) : State → State → Prop where
  | leave {s : State} : onTape s.config s.memPtr → s.mem.read s.memPtr.toNat = 0 →
      LoopRuns p q s { s with codePtr := q + 1 }
  | again {s u t : State} (n : Nat) : onTape s.config s.memPtr → s.mem.read s.memPtr.toNat ≠ 0 →
      runFor n { s with codePtr := p + 1 } = .next u → u.status = .running → u.codePtr = q →
      (∀ (m : Nat) (v : State), m < n → runFor m { s with codePtr := p + 1 } = .next v → v.codePtr ≠ q) →
      LoopRuns p q u t → LoopRuns p q s t

/-! ### Safety -/

/-- A run of `k` transitions is safe: it answers a state, and that state is no fault of the core. -/
def safeFor (k : Nat) (s : State) : Prop := ∃ t, runFor k s = .next t ∧ t.status ≠ .fault

end Sys2Proof.Machine
end

