-- ==== Sys2Proof/Certificates/Slice0/Obligations.lean ====
section
/-! DEFINITION. The statements about the core, for the provers. A docstring names the rule or section of spec/ that a
statement formalises. In every statement about `exec` a fault of the core is a next state with the fault record written
(60_exceptions.md section 2). -/

open Sys2Proof Sys2Proof.Machine

/-! ### Encoding (30_encoding.md) -/

/-- The eight recognized bytes, bit by bit from the table of section 2, are the eight instructions. The byte values are the
spec's own from general knowledge (its decision D2), not the source's. -/
def Obligations.RecognizedBytesDecode : Prop :=
  decodeByte 0b00111100 = .ptrDec ∧ decodeByte 0b00111110 = .ptrInc ∧ decodeByte 0b00101101 = .cellDec ∧
    decodeByte 0b00101011 = .cellInc ∧ decodeByte 0b01011011 = .loopOpen ∧ decodeByte 0b01011101 = .loopClose ∧
    decodeByte 0b00101100 = .input ∧ decodeByte 0b00101110 = .output ∧ decodeByte 0b10111100 = .nop 0xBC

/-- R85, R86: decoding takes exactly one byte, whatever it is; every byte but the eight is a NOP, and executing it advances
`code_ptr` by 1 and does nothing else. -/
def Obligations.EveryOtherByteIsNop : Prop :=
  (∀ b rest, decode (b :: rest) = .ok (decodeByte b, rest)) ∧
    ∀ b, b ≠ 0x3C → b ≠ 0x3E → b ≠ 0x2D → b ≠ 0x2B → b ≠ 0x5B → b ≠ 0x5D → b ≠ 0x2C → b ≠ 0x2E →
      decodeByte b = .nop b ∧ ∀ s, exec (decodeByte b) s = .next { s with codePtr := s.codePtr + 1 }

/-- A program of well-formed instructions and its bytes are the same thing: the bytes decode to the instructions, the fetch
at every index gives the instruction of that index, and beyond the program's end it gives none. -/
def Obligations.EncodedProgramIsFetched : Prop :=
  ∀ program : List Instr, (∀ i ∈ program, i.wf = true) →
    decodeProgram (encodeProgram program) = program ∧
      ∀ (s : State) (p : Nat), s.code = encodeProgram program → s.codePtr = p → fetch s = program[p]?

/-- Every byte sequence is a program: its instructions are well formed and encode to the same bytes. -/
def Obligations.EveryByteSequenceIsAProgram : Prop :=
  ∀ bytes : List Byte,
    encodeProgram (decodeProgram bytes) = bytes ∧ ∀ i ∈ decodeProgram bytes, i.wf = true

/-! ### Reset and registers (10_state.md, 70_reset_and_hazards.md) -/

/-- Power-up leaves what the table of 10_state.md section 7 says, for every configuration; reset is the default one. The
power-up column is the spec's decision D20. -/
def Obligations.PowerUpValues : Prop :=
  (∀ config, State.powerUp config =
      { config := config, code := [], inputs := [], codePtr := 0, memPtr := (config.memSize : Int) / 2, inputPtr := 0,
        mem := [], output := [], status := .idle, cause := .none, faultPc := 0, faultArg := 0 }) ∧
    (∀ config a, (State.powerUp config).mem.read a = 0) ∧
    State.reset = State.powerUp { memSize := 4096, ptrRange := none, codeMax := none, inputMax := none, outCap := none } ∧
    State.reset.memPtr = 2048

/-- The encodings of the `status` and `cause` registers as the host reads them (10_state.md section 5; decisions D10 and
D11). -/
def Obligations.ControlRegisterEncodings : Prop :=
  (statusBits .idle = 0 ∧ statusBits .running = 1 ∧ statusBits .halted = 2 ∧ statusBits .fault = 3 ∧
      statusBits .stopped = 4) ∧
    (causeBits .none = 0 ∧ causeBits .memBounds = 1 ∧ causeBits .unbalanced = 2 ∧ causeBits .resourceLimit = 3) ∧
    ∀ s, readControl s = (statusBits s.status, causeBits s.cause, s.faultPc, s.faultArg)

/-! ### The tape (20_memory.md) -/

/-- R52, R53, R54: an access inside the tape reads the cell, or replaces exactly the cell and leaves every other cell and
every other part of the state as it was; outside `[0, MEM_SIZE)` both raise `MemBounds(a)`, whose fault detail is `a`. -/
def Obligations.TapeAccess : Prop :=
  ∀ (s : State) (a : Int) (v : Byte),
    (0 ≤ a ∧ a < s.config.memSize →
      memRead s a = .ok (s.mem.read a.toNat) ∧
        ∃ m, memWrite s a v = .ok { s with mem := m } ∧
          ∀ j, m.read j = if j = a.toNat then v else s.mem.read j) ∧
    (¬ (0 ≤ a ∧ a < s.config.memSize) →
      memRead s a = .error (.raised (.memBounds a)) ∧ memWrite s a v = .error (.raised (.memBounds a))) ∧
    (Raised.memBounds a).arg = a

/-- Two tapes in canonical form that hold the same bytes are the same data (the model's own convention about how a tape is
written down). -/
def Obligations.CanonicalTapesEqualWhenReadsAgree : Prop :=
  ∀ m₁ m₂ : Memory, m₁.wf = true → m₂.wf = true → (∀ a, m₁.read a = m₂.read a) → m₁ = m₂

/-! ### The instructions, each whole: encoding, effect with frame, and where it faults -/

/-- R130: PTR_DEC. -/
def Obligations.PtrDecMovesCursorLeft : Prop :=
  encode .ptrDec = [0x3C] ∧ decodeByte 0x3C = .ptrDec ∧
    ∀ s : State,
      ((∀ values, s.config.ptrRange = some values → s.memPtr - 1 ∈ values) →
        exec .ptrDec s = .next { s with memPtr := s.memPtr - 1, codePtr := s.codePtr + 1 }) ∧
      (∀ values, s.config.ptrRange = some values → s.memPtr - 1 ∉ values →
        exec .ptrDec s =
          .next { s with status := .fault, cause := .resourceLimit, faultPc := s.codePtr, faultArg := 0 })

/-- R131: PTR_INC. -/
def Obligations.PtrIncMovesCursorRight : Prop :=
  encode .ptrInc = [0x3E] ∧ decodeByte 0x3E = .ptrInc ∧
    ∀ s : State,
      ((∀ values, s.config.ptrRange = some values → s.memPtr + 1 ∈ values) →
        exec .ptrInc s = .next { s with memPtr := s.memPtr + 1, codePtr := s.codePtr + 1 }) ∧
      (∀ values, s.config.ptrRange = some values → s.memPtr + 1 ∉ values →
        exec .ptrInc s =
          .next { s with status := .fault, cause := .resourceLimit, faultPc := s.codePtr, faultArg := 0 })

/-- R140: CELL_DEC. The new value is written as the integer `(v - 1) mod 256`. -/
def Obligations.CellDecWrapsCurrentCell : Prop :=
  encode .cellDec = [0x2D] ∧ decodeByte 0x2D = .cellDec ∧
    ∀ s : State,
      (0 ≤ s.memPtr ∧ s.memPtr < s.config.memSize →
        ∃ m, exec .cellDec s = .next { s with mem := m, codePtr := s.codePtr + 1 } ∧
          ((m.read s.memPtr.toNat).toNat : Int) = ((s.mem.read s.memPtr.toNat).toNat - 1 : Int) % 256 ∧
          ∀ a, a ≠ s.memPtr.toNat → m.read a = s.mem.read a) ∧
      (¬ (0 ≤ s.memPtr ∧ s.memPtr < s.config.memSize) →
        exec .cellDec s =
          .next { s with status := .fault, cause := .memBounds, faultPc := s.codePtr, faultArg := s.memPtr })

/-- R141: CELL_INC. The new value is written as the integer `(v + 1) mod 256`. -/
def Obligations.CellIncWrapsCurrentCell : Prop :=
  encode .cellInc = [0x2B] ∧ decodeByte 0x2B = .cellInc ∧
    ∀ s : State,
      (0 ≤ s.memPtr ∧ s.memPtr < s.config.memSize →
        ∃ m, exec .cellInc s = .next { s with mem := m, codePtr := s.codePtr + 1 } ∧
          ((m.read s.memPtr.toNat).toNat : Int) = ((s.mem.read s.memPtr.toNat).toNat + 1 : Int) % 256 ∧
          ∀ a, a ≠ s.memPtr.toNat → m.read a = s.mem.read a) ∧
      (¬ (0 ≤ s.memPtr ∧ s.memPtr < s.config.memSize) →
        exec .cellInc s =
          .next { s with status := .fault, cause := .memBounds, faultPc := s.codePtr, faultArg := s.memPtr })

/-- R160: LOOP_OPEN. Off the tape it faults before any scan, so whatever the program is. -/
def Obligations.LoopOpenSkipsOnZero : Prop :=
  encode .loopOpen = [0x5B] ∧ decodeByte 0x5B = .loopOpen ∧
    ∀ s : State,
      (0 ≤ s.memPtr ∧ s.memPtr < s.config.memSize →
        (∀ q, s.mem.read s.memPtr.toNat = 0 → matchBracket s.code s.codePtr .forward = some q →
          exec .loopOpen s = .next { s with codePtr := q + 1 }) ∧
        (s.mem.read s.memPtr.toNat = 0 → matchBracket s.code s.codePtr .forward = none →
          exec .loopOpen s =
            .next { s with status := .fault, cause := .unbalanced, faultPc := s.codePtr, faultArg := 1 }) ∧
        (s.mem.read s.memPtr.toNat ≠ 0 → exec .loopOpen s = .next { s with codePtr := s.codePtr + 1 })) ∧
      (¬ (0 ≤ s.memPtr ∧ s.memPtr < s.config.memSize) →
        exec .loopOpen s =
          .next { s with status := .fault, cause := .memBounds, faultPc := s.codePtr, faultArg := s.memPtr })

/-- R161: LOOP_CLOSE. Off the tape it faults before any scan, so whatever the program is. -/
def Obligations.LoopCloseRepeatsOnNonZero : Prop :=
  encode .loopClose = [0x5D] ∧ decodeByte 0x5D = .loopClose ∧
    ∀ s : State,
      (0 ≤ s.memPtr ∧ s.memPtr < s.config.memSize →
        (∀ q, s.mem.read s.memPtr.toNat ≠ 0 → matchBracket s.code s.codePtr .backward = some q →
          exec .loopClose s = .next { s with codePtr := q + 1 }) ∧
        (s.mem.read s.memPtr.toNat ≠ 0 → matchBracket s.code s.codePtr .backward = none →
          exec .loopClose s =
            .next { s with status := .fault, cause := .unbalanced, faultPc := s.codePtr, faultArg := -1 }) ∧
        (s.mem.read s.memPtr.toNat = 0 → exec .loopClose s = .next { s with codePtr := s.codePtr + 1 })) ∧
      (¬ (0 ≤ s.memPtr ∧ s.memPtr < s.config.memSize) →
        exec .loopClose s =
          .next { s with status := .fault, cause := .memBounds, faultPc := s.codePtr, faultArg := s.memPtr })

/-- R180: IN. The premise `0 <= input_ptr` is the invariant of statement InvariantKeptByStep; below the stream the model
stops (log 5), which no reachable state meets. -/
def Obligations.InStoresNextInputOrZero : Prop :=
  encode .input = [0x2C] ∧ decodeByte 0x2C = .input ∧
    ∀ s : State, 0 ≤ s.inputPtr →
      (0 ≤ s.memPtr ∧ s.memPtr < s.config.memSize →
        (∀ v, s.inputs[s.inputPtr.toNat]? = some v →
          ∃ m, exec .input s =
              .next { s with mem := m, inputPtr := s.inputPtr + 1, codePtr := s.codePtr + 1 } ∧
            m.read s.memPtr.toNat = v ∧ ∀ a, a ≠ s.memPtr.toNat → m.read a = s.mem.read a) ∧
        (s.inputs.length ≤ s.inputPtr →
          ∃ m, exec .input s = .next { s with mem := m, codePtr := s.codePtr + 1 } ∧
            m.read s.memPtr.toNat = 0 ∧ ∀ a, a ≠ s.memPtr.toNat → m.read a = s.mem.read a)) ∧
      (¬ (0 ≤ s.memPtr ∧ s.memPtr < s.config.memSize) →
        exec .input s =
          .next { s with status := .fault, cause := .memBounds, faultPc := s.codePtr, faultArg := s.memPtr })

/-- R181: OUT. Off the tape it is MEM_BOUNDS whether or not the output is full. -/
def Obligations.OutAppendsCurrentCell : Prop :=
  encode .output = [0x2E] ∧ decodeByte 0x2E = .output ∧
    ∀ s : State,
      (0 ≤ s.memPtr ∧ s.memPtr < s.config.memSize →
        ((∀ cap, s.config.outCap = some cap → s.output.length < cap) →
          exec .output s =
            .next { s with output := s.output ++ [s.mem.read s.memPtr.toNat], codePtr := s.codePtr + 1 }) ∧
        (∀ cap, s.config.outCap = some cap → cap ≤ s.output.length →
          exec .output s =
            .next { s with status := .fault, cause := .resourceLimit, faultPc := s.codePtr, faultArg := 1 })) ∧
      (¬ (0 ≤ s.memPtr ∧ s.memPtr < s.config.memSize) →
        exec .output s =
          .next { s with status := .fault, cause := .memBounds, faultPc := s.codePtr, faultArg := s.memPtr })

/-- R190: NOP, for every byte its constructor can carry and in every state: only `code_ptr` advances. -/
def Obligations.NopOnlyAdvances : Prop :=
  (∀ b, b ≠ 0x3C → b ≠ 0x3E → b ≠ 0x2D → b ≠ 0x2B → b ≠ 0x5B → b ≠ 0x5D → b ≠ 0x2C → b ≠ 0x2E →
      encode (.nop b) = [b] ∧ decodeByte b = .nop b) ∧
    ∀ (b : Byte) (s : State), exec (.nop b) s = .next { s with codePtr := s.codePtr + 1 }

/-! ### What every instruction obeys (40_step_engine.md) -/

/-- R103: a step that commits either advances `code_ptr` by 1, or, for a bracket whose jump is taken, sets it one past the
matching bracket; never both. -/
def Obligations.CodePtrAdvancesOrJumps : Prop :=
  ∀ (i : Instr) (s t : State), s.status ≠ .fault → exec i s = .next t → t.status ≠ .fault →
    (i = .loopOpen ∧ s.mem.read s.memPtr.toNat = 0 →
      ∃ q, matchBracket s.code s.codePtr .forward = some q ∧ t.codePtr = q + 1) ∧
    (i = .loopClose ∧ s.mem.read s.memPtr.toNat ≠ 0 →
      ∃ q, matchBracket s.code s.codePtr .backward = some q ∧ t.codePtr = q + 1) ∧
    (¬ (i = .loopOpen ∧ s.mem.read s.memPtr.toNat = 0) ∧ ¬ (i = .loopClose ∧ s.mem.read s.memPtr.toNat ≠ 0) →
      t.codePtr = s.codePtr + 1)

/-- The frame of every instruction (section 1, bounded effect): besides `code_ptr` a committing step writes at most the
cursor (pointer moves), the one cell at the cursor (cell arithmetic and IN), the input pointer (IN, by at most 1) or one
more output byte (OUT). -/
def Obligations.BoundedEffect : Prop :=
  ∀ (i : Instr) (s t : State), s.status ≠ .fault → exec i s = .next t → t.status ≠ .fault →
    (t.config = s.config ∧ t.code = s.code ∧ t.inputs = s.inputs) ∧
    (t.status = s.status ∧ t.cause = s.cause ∧ t.faultPc = s.faultPc ∧ t.faultArg = s.faultArg) ∧
    (i ≠ .ptrDec → i ≠ .ptrInc → t.memPtr = s.memPtr) ∧
    (i ≠ .cellDec → i ≠ .cellInc → i ≠ .input → t.mem = s.mem) ∧
    (∀ a : Nat, (a : Int) ≠ s.memPtr → t.mem.read a = s.mem.read a) ∧
    (i ≠ .input → t.inputPtr = s.inputPtr) ∧
    (t.inputPtr = s.inputPtr ∨ t.inputPtr = s.inputPtr + 1) ∧
    (i ≠ .output → t.output = s.output) ∧
    (t.output = s.output ∨ t.output = s.output ++ [s.mem.read s.memPtr.toNat])

/-- R106: a step that raises a fault commits none of its writes: nothing but the fault's own record and the status
differs. -/
def Obligations.FaultCommitsNothing : Prop :=
  ∀ (i : Instr) (s t : State), s.status ≠ .fault → exec i s = .next t → t.status = .fault →
    t = { s with status := .fault, cause := t.cause, faultPc := s.codePtr, faultArg := t.faultArg }

/-- R107: no instruction halts the core or stops it otherwise; a run ends only at the program's end, by a fault, or by
ABORT. -/
def Obligations.OnlyTheLoopEndsARun : Prop :=
  (∀ (i : Instr) (s t : State), exec i s = .next t → t.status = s.status ∨ t.status = .fault) ∧
    (∀ s t : State, s.status = .running → step s = .next t → t.status ≠ .running →
      t.status = .halted ∧ (s.code.length : Int) ≤ s.codePtr ∨ t.status = .fault ∧ s.codePtr < s.code.length) ∧
    ∀ s : State, s.status = .running → (abort s).status = .stopped

/-- The reads of a step (20_memory.md section 2: one addressing mode): an instruction looks at no cell but the current one.
With any other tape that agrees there, the same instruction gives the same state but for the tape, and the current cell
again agrees afterwards. -/
def Obligations.OnlyCurrentCellIsRead : Prop :=
  ∀ (i : Instr) (s t : State) (m : Memory), m.read s.memPtr.toNat = s.mem.read s.memPtr.toNat →
    exec i s = .next t →
    ∃ m', exec i { s with mem := m } = .next { t with mem := m' } ∧
      m'.read s.memPtr.toNat = t.mem.read s.memPtr.toNat

/-! ### Faults (60_exceptions.md) -/

/-- MEM_BOUNDS is raised by exactly the six instructions that access the tape, exactly when the cursor is off it, and
whatever else would fault (sections 1 and 3; the fault record is decision D11). The premise on `input_ptr` is the
invariant's. -/
def Obligations.MemBoundsExactlyOffTheTape : Prop :=
  ∀ (i : Instr) (s : State), s.cause = .none → 0 ≤ s.inputPtr →
    ((∃ t, exec i s = .next t ∧ t.cause = .memBounds) ↔
      (i = .cellDec ∨ i = .cellInc ∨ i = .loopOpen ∨ i = .loopClose ∨ i = .input ∨ i = .output) ∧
        ¬ (0 ≤ s.memPtr ∧ s.memPtr < s.config.memSize))

/-- UNBALANCED is raised by exactly a bracket whose jump is taken and whose scan finds no match, the cursor being on the
tape (section 1; decision D14: never for a bracket that does not scan). -/
def Obligations.UnbalancedExactlyOnFailedScan : Prop :=
  ∀ (i : Instr) (s : State), s.cause = .none →
    ((∃ t, exec i s = .next t ∧ t.cause = .unbalanced) ↔
      (0 ≤ s.memPtr ∧ s.memPtr < s.config.memSize) ∧
        (i = .loopOpen ∧ s.mem.read s.memPtr.toNat = 0 ∧ matchBracket s.code s.codePtr .forward = none ∨
          i = .loopClose ∧ s.mem.read s.memPtr.toNat ≠ 0 ∧ matchBracket s.code s.codePtr .backward = none))

/-- RESOURCE_LIMIT is raised by exactly a pointer move that would leave a finite `PTR_RANGE` and by an OUT, its cell being
on the tape, at a full finite `OUT_CAP` (section 1; decisions D4 and D8); so never in the default configuration. -/
def Obligations.ResourceLimitExactlyAtFiniteCapacity : Prop :=
  ∀ (i : Instr) (s : State), s.cause = .none →
    ((∃ t, exec i s = .next t ∧ t.cause = .resourceLimit) ↔
      (∃ values, s.config.ptrRange = some values ∧
          (i = .ptrDec ∧ s.memPtr - 1 ∉ values ∨ i = .ptrInc ∧ s.memPtr + 1 ∉ values)) ∨
        ∃ cap, s.config.outCap = some cap ∧ i = .output ∧ (0 ≤ s.memPtr ∧ s.memPtr < s.config.memSize) ∧
          cap ≤ s.output.length)

/-- Only START leaves FAULT, and the same holds of IDLE, HALTED and STOPPED: there RUN, STEP and ABORT change nothing
(60_exceptions.md section 2, 40_step_engine.md section 2; decisions D10 and D12; that a step in such a status answers the
same state is log 3). -/
def Obligations.OnlyStartLeavesQuiescentStatus : Prop :=
  ∀ (op : HostOp) (s : State), s.config.wf = true → s.status ≠ .running →
    (∀ codeIn inputIn, op ≠ .start codeIn inputIn) → applyHost op s = .next s

/-! ### The execution loop and the host (40_step_engine.md, 10_state.md section 8, 70_reset_and_hazards.md) -/

/-- A step of a running core, the byte at `code_ptr` being `b`, is the meaning of the instruction that `b` decodes to, and
that instruction is well formed; nothing is added around it. -/
def Obligations.StepRunsDecodedInstruction : Prop :=
  ∀ (s : State) (b : Byte), s.config.wf = true → s.status = .running → 0 ≤ s.codePtr →
    s.code[s.codePtr.toNat]? = some b → step s = exec (decodeByte b) s ∧ (decodeByte b).wf = true

/-- R111: the transition. At the program's end the core halts and nothing else changes; before it the instruction at
`code_ptr` is run, and it either goes on in RUNNING or enters FAULT with the fault's cause, its `code_ptr` and its detail
recorded and nothing else changed. `MEM_SIZE >= 1` is the premise of R10 and `0 <= code_ptr` is the invariant's. -/
def Obligations.TransitionHaltsStepsOrFaults : Prop :=
  ∀ s : State, 1 ≤ s.config.memSize → s.status = .running →
    ((s.code.length : Int) ≤ s.codePtr → step s = .next { s with status := .halted }) ∧
    (0 ≤ s.codePtr ∧ s.codePtr < s.code.length →
      ∃ b, s.code[s.codePtr.toNat]? = some b ∧ step s = exec (decodeByte b) s ∧
        ∀ t, step s = .next t → t.status = .running ∨
          ∃ what : Raised,
            t = { s with status := .fault, cause := what.cause, faultPc := s.codePtr, faultArg := what.arg })

/-- START in any status: accepted exactly when program and input are within `CODE_MAX` and `INPUT_MAX`, it leaves the state
of 10_state.md section 7's second column whatever the old state was; refused, it changes nothing (decisions D25 to D27). -/
def Obligations.StartLoadsAFreshRun : Prop :=
  ∀ (s : State) (codeIn inputIn : List Byte), 1 ≤ s.config.memSize →
    ((∀ most, s.config.codeMax = some most → codeIn.length ≤ most) ∧
        (∀ most, s.config.inputMax = some most → inputIn.length ≤ most) →
      applyHost (.start codeIn inputIn) s =
        .next { config := s.config, code := codeIn, inputs := inputIn, codePtr := 0,
                memPtr := (s.config.memSize : Int) / 2, inputPtr := 0, mem := [], output := [], status := .running,
                cause := .none, faultPc := 0, faultArg := 0 }) ∧
    ((∃ most, s.config.codeMax = some most ∧ most < codeIn.length) ∨
        (∃ most, s.config.inputMax = some most ∧ most < inputIn.length) →
      applyHost (.start codeIn inputIn) s = .next s)

/-- ABORT of a running core changes only the status, to STOPPED; STEP is one transition and so is RUN for one
(60_exceptions.md section 4; decisions D17 and D18; RUN counted in transitions is log 8). -/
def Obligations.AbortAndSingleStep : Prop :=
  ∀ s : State, s.config.wf = true →
    (s.status = .running → applyHost .abort s = .next { s with status := .stopped }) ∧
    applyHost .step s = step s ∧ applyHost (.run 1) s = step s

/-- R118: however the host spreads its transitions over STEPs and RUNs, one per STEP, some per RUN or all in one RUN, the
core goes through the same states. On a core that exists, any list of such operations answers what one RUN of as many
transitions answers; and one more STEP answers what one more transition of the RUN answers. -/
def Obligations.HostStepsAndRunsAgree : Prop :=
  (∀ (ops : List HostOp) (s : State), s.config.wf = true → (∀ op ∈ ops, op = .step ∨ ∃ k, op = .run k) →
      applyHostAll ops s = applyHost (.run (ops.map HostOp.transitions).sum) s) ∧
    ∀ (m : Nat) (s t : State), s.config.wf = true → applyHost (.run m) s = .next t →
      applyHost (.run (m + 1)) s = applyHost .step t

/-- R243: program and input are fixed for the run: no operation of the host but START, and so no number of transitions,
changes either (nor the configuration). -/
def Obligations.ProgramAndInputFixedForTheRun : Prop :=
  ∀ (op : HostOp) (s t : State), (∀ codeIn inputIn, op ≠ .start codeIn inputIn) → applyHost op s = .next t →
    t.code = s.code ∧ t.inputs = s.inputs ∧ t.config = s.config

/-- R27: output only grows, by appending, over any number of transitions; and in one step of the machine only `.` appends,
exactly one byte, the current cell. -/
def Obligations.OutputIsAppendOnly : Prop :=
  (∀ (k : Nat) (s t : State), runFor k s = .next t → ∃ added, t.output = s.output ++ added ∧ added.length ≤ k) ∧
    ∀ s t : State, step s = .next t →
      t.output = s.output ∨
        s.status = .running ∧ fetch s = some .output ∧ t.output = s.output ++ [s.mem.read s.memPtr.toNat]

/-- The input pointer never falls over any number of transitions, and in one step only `,` moves it, by 1, and only while
input remains (10_state.md section 2). -/
def Obligations.InputPointerOnlyAdvances : Prop :=
  (∀ (k : Nat) (s t : State), runFor k s = .next t → s.inputPtr ≤ t.inputPtr ∧ t.inputPtr ≤ s.inputPtr + k) ∧
    ∀ s t : State, step s = .next t →
      t.inputPtr = s.inputPtr ∨
        s.status = .running ∧ fetch s = some .input ∧ s.inputPtr < s.inputs.length ∧ t.inputPtr = s.inputPtr + 1

/-- The result of a run (40_step_engine.md section 3; the error of a faulted run is decision D21): the whole output of a
halted run, the fault record of a faulted one, and nothing for a run that is stopped or not over. -/
def Obligations.RunResultByStatus : Prop :=
  ∀ s : State,
    (s.status = .halted → runResult s = some (.output s.output)) ∧
    (s.status = .fault → runResult s = some (.error s.cause s.faultPc s.faultArg)) ∧
    (s.status ≠ .halted → s.status ≠ .fault → runResult s = none)

/-- A run of a running core is safe, or its first fault ends it precisely (60_exceptions.md sections 2 and 3; decision D12):
there is a last state `u` of the run still RUNNING, and the run's state is `u` with the fault of `u`'s instruction recorded
and nothing else changed, however many transitions the host still asks for. -/
def Obligations.FirstFaultEndsTheRun : Prop :=
  ∀ (k : Nat) (s t : State), s.status = .running → runFor k s = .next t →
    safeFor k s ∨
      ∃ (j : Nat) (u : State), j < k ∧ runFor j s = .next u ∧ u.status = .running ∧
        t = { u with status := .fault, cause := t.cause, faultPc := u.codePtr, faultArg := t.faultArg }

/-- The step count of a run (40_step_engine.md section 3; log 10): while the core stays RUNNING every transition is a step
that commits; the halt transition adds none to either count; a transition that enters FAULT is a step that does not commit;
and after the halt or the fault neither count grows, however many transitions are still asked for. -/
def Obligations.StepCountExcludesTheHalt : Prop :=
  ∀ (k : Nat) (s t : State), s.status = .running → runFor k s = .next t → t.status = .running →
    stepCount k s = k ∧ committedSteps k s = k ∧
      ((t.code.length : Int) ≤ t.codePtr → ∀ j, stepCount (k + 1 + j) s = k ∧ committedSteps (k + 1 + j) s = k) ∧
      ∀ u, step t = .next u → u.status = .fault →
        ∀ j, stepCount (k + 1 + j) s = k + 1 ∧ committedSteps (k + 1 + j) s = k

/-- A cursor that is in a finite `PTR_RANGE` stays in it (10_state.md section 2; decision D4). -/
def Obligations.CursorStaysInPtrRange : Prop :=
  ∀ (k : Nat) (s t : State) (values : List Int), s.config.ptrRange = some values → s.memPtr ∈ values →
    runFor k s = .next t → t.memPtr ∈ values

/-! ### The bracket resolver (43_loop.md) -/

/-- R151, R153: what a byte adds to the nesting counter in each direction. -/
def Obligations.BracketCounting : Prop :=
  (bracketDelta 0x5B .forward = 1 ∧ bracketDelta 0x5D .forward = -1) ∧
    (bracketDelta 0x5B .backward = -1 ∧ bracketDelta 0x5D .backward = 1) ∧
    ∀ b dir, b ≠ 0x5B → b ≠ 0x5D → bracketDelta b dir = 0

/-- R152: the resolver returns `q` exactly when `q` is the first scan position at which the counter is 0 after its byte was
counted, every position up to it lying in the program. -/
def Obligations.MatchReturnsFirstZero : Prop :=
  ∀ (code : List Byte) (p0 : Int) (dir : Dir) (q : Int),
    matchBracket code p0 dir = some q ↔
      ∃ k : Nat, q = p0 + dir.step * (k + 1) ∧
        (∀ j : Nat, j ≤ k → 0 ≤ p0 + dir.step * (j + 1) ∧ p0 + dir.step * (j + 1) < code.length) ∧
        depthAfter code p0 dir (k + 1) = 0 ∧ ∀ j : Nat, j ≤ k → depthAfter code p0 dir j ≠ 0

/-- R152, R155: the resolver fails exactly when the scan comes to a position outside the program with the counter never
having been 0. -/
def Obligations.MatchFailsExactlyOffTheEnd : Prop :=
  ∀ (code : List Byte) (p0 : Int) (dir : Dir),
    matchBracket code p0 dir = none ↔
      ∃ k : Nat, ¬ (0 ≤ p0 + dir.step * (k + 1) ∧ p0 + dir.step * (k + 1) < code.length) ∧
        ∀ j : Nat, j ≤ k → depthAfter code p0 dir j ≠ 0 ∧
          (j < k → 0 ≤ p0 + dir.step * (j + 1) ∧ p0 + dir.step * (j + 1) < code.length)

/-- The scan ends within the program's length: with any number of rounds from `N` on, the result is the same, so no more
than `N` positions are examined (43_loop.md section 1, termination; the bound on rounds is log 7). -/
def Obligations.ScanEndsWithinProgramLength : Prop :=
  ∀ (code : List Byte) (p0 : Int) (dir : Dir) (rounds : Nat), code.length ≤ rounds →
    scanFrom code rounds (startScan p0 dir) = matchBracket code p0 dir

/-- What the resolver returns is a bracket of the other kind, on the right side (43_loop.md section 1, properties of the
result). -/
def Obligations.MatchIsTheOtherBracket : Prop :=
  ∀ (code : List Byte) (p0 q : Int),
    (matchBracket code p0 .forward = some q → p0 < q ∧ 0 ≤ q ∧ q < code.length ∧ codeRead code q = some 0x5D) ∧
    (matchBracket code p0 .backward = some q → q < p0 ∧ 0 ≤ q ∧ q < code.length ∧ codeRead code q = some 0x5B)

/-- During every scan, one that returns and one that fails, the nesting counter is at least 1 and at most one more than the
number of brackets scanned, which is at most the number of positions scanned and at most the program's length (43_loop.md
section 1, properties of the result; 10_state.md section 6, the width of `depth`). For a scan that returns this holds up to
the returned position, where the counter is 0; for one that fails, as long as it is in the program. -/
def Obligations.NestingCounterStaysPositive : Prop :=
  ∀ (code : List Byte) (p0 : Int) (dir : Dir) (j : Nat),
    ((∃ q, matchBracket code p0 dir = some q ∧ (j : Int) < (q - p0) * dir.step) ∨
        matchBracket code p0 dir = none ∧
          ∀ i : Nat, i < j → 0 ≤ p0 + dir.step * (i + 1) ∧ p0 + dir.step * (i + 1) < code.length) →
      1 ≤ depthAfter code p0 dir j ∧ depthAfter code p0 dir j ≤ bracketsScanned code p0 dir j + 1 ∧
        bracketsScanned code p0 dir j ≤ j ∧ bracketsScanned code p0 dir j ≤ code.length

/-- Bracket resolution is an involution, in every program, balanced or not (43_loop.md section 1). -/
def Obligations.MatchIsAnInvolution : Prop :=
  ∀ (code : List Byte) (p q : Int),
    (codeRead code p = some 0x5B → matchBracket code p .forward = some q → matchBracket code q .backward = some p) ∧
    (codeRead code q = some 0x5D → matchBracket code q .backward = some p → matchBracket code p .forward = some q)

/-- The two test steps of a matched pair's loop (43_loop.md section 3): with `[` at `p` and its match at `q`, a step at
either bracket with the cell at the cursor zero leaves the loop at `q + 1`, with it non-zero goes to the body's first byte
`p + 1`, and does nothing else. -/
def Obligations.MatchedPairTestSteps : Prop :=
  ∀ (s : State) (p q : Int), s.config.wf = true → s.status = .running →
    0 ≤ s.memPtr ∧ s.memPtr < s.config.memSize → codeRead s.code p = some 0x5B →
    matchBracket s.code p .forward = some q → s.codePtr = p ∨ s.codePtr = q →
      (s.mem.read s.memPtr.toNat = 0 → step s = .next { s with codePtr := q + 1 }) ∧
      (s.mem.read s.memPtr.toNat ≠ 0 → step s = .next { s with codePtr := p + 1 })

/-- The body of a matched pair is a body (43_loop.md section 3): strictly between `[` at `p` and its match at `q`, a step
that goes on in RUNNING stays between them or comes to `q`. -/
def Obligations.LoopBodyStaysInside : Prop :=
  ∀ (s t : State) (p q : Int), codeRead s.code p = some 0x5B → matchBracket s.code p .forward = some q →
    p < s.codePtr ∧ s.codePtr < q → s.status = .running → step s = .next t → t.status = .running →
    p < t.codePtr ∧ t.codePtr ≤ q

/-- A matched pair behaves as a while loop (43_loop.md section 3): from a running core at either bracket, every execution
of `while mem[mem_ptr] != 0 do B` is a run of the core; and every run of the core that comes, RUNNING, to `q + 1` for the
first time is such an execution. -/
def Obligations.MatchedPairRunsAsWhile : Prop :=
  ∀ (s t : State) (p q : Int), s.config.wf = true → s.status = .running → codeRead s.code p = some 0x5B →
    matchBracket s.code p .forward = some q → s.codePtr = p ∨ s.codePtr = q →
      (LoopRuns p q s t → ∃ k, runFor k s = .next t) ∧
      ∀ k, runFor k s = .next t → t.status = .running → t.codePtr = q + 1 →
        (∀ (m : Nat) (v : State), m < k → runFor m s = .next v → v.codePtr ≠ q + 1) → LoopRuns p q s t

/-! ### Laws of sequences (41_pointer.md, 42_cell_arith.md, 44_io.md) -/

/-- After any instructions that did not fault the cursor is where it was, plus the `>` and minus the `<` executed
(41_pointer.md, the law after the two instructions). -/
def Obligations.CursorCountsPointerMoves : Prop :=
  ∀ (program : List Instr) (s t : State), s.status ≠ .fault → execAll program s = .next t → t.status ≠ .fault →
    t.memPtr = s.memPtr + program.count .ptrInc - program.count .ptrDec

/-- With an unbounded `PTR_RANGE` any sequence of pointer moves and NOPs runs through, however far from the tape the cursor
wanders, and changes only the cursor and `code_ptr` (41_pointer.md; 45_default.md). -/
def Obligations.PointerMovesNeverFault : Prop :=
  ∀ (program : List Instr) (s : State), s.config.ptrRange = none →
    (∀ i ∈ program, i = .ptrDec ∨ i = .ptrInc ∨ ∃ b, i = .nop b) →
    execAll program s =
      .next { s with memPtr := s.memPtr + program.count .ptrInc - program.count .ptrDec,
                     codePtr := s.codePtr + program.length }

/-- `k` executions of `+` leave `(v + k) mod 256` in the cell, `k` of `-` leave `(v - k) mod 256`, and nothing else changes
but `code_ptr` (42_cell_arith.md, the arithmetic laws). -/
def Obligations.RepeatedCellArithmetic : Prop :=
  ∀ (k : Nat) (s : State), 0 ≤ s.memPtr ∧ s.memPtr < s.config.memSize →
    (∃ m, execAll (List.replicate k .cellInc) s = .next { s with mem := m, codePtr := s.codePtr + k } ∧
      ((m.read s.memPtr.toNat).toNat : Int) = ((s.mem.read s.memPtr.toNat).toNat + k : Int) % 256 ∧
      ∀ a, a ≠ s.memPtr.toNat → m.read a = s.mem.read a) ∧
    ∃ m, execAll (List.replicate k .cellDec) s = .next { s with mem := m, codePtr := s.codePtr + k } ∧
      ((m.read s.memPtr.toNat).toNat : Int) = ((s.mem.read s.memPtr.toNat).toNat - k : Int) % 256 ∧
      ∀ a, a ≠ s.memPtr.toNat → m.read a = s.mem.read a

/-- `k` executions of `,` advance the input pointer to `min(input_ptr + k, L)`, never fault on exhausted input, and leave
in the cell the last byte read, or 0 once the input is exhausted (44_io.md, the laws of the input stream). -/
def Obligations.RepeatedInput : Prop :=
  ∀ (k : Nat) (s : State), 0 ≤ s.memPtr ∧ s.memPtr < s.config.memSize → 0 ≤ s.inputPtr →
    s.inputPtr ≤ s.inputs.length →
    ∃ m, execAll (List.replicate (k + 1) .input) s =
        .next { s with mem := m, inputPtr := min (s.inputPtr + k + 1) s.inputs.length,
                       codePtr := s.codePtr + k + 1 } ∧
      m.read s.memPtr.toNat = s.inputs.getD (s.inputPtr.toNat + k) 0 ∧
      ∀ a, a ≠ s.memPtr.toNat → m.read a = s.mem.read a

/-! ### Invariants and isolation -/

/-- A core at power-up, of every configuration that exists, satisfies the invariant. -/
def Obligations.InvariantAtPowerUp : Prop :=
  CoreInv State.reset ∧ ∀ config : Config, config.wf = true → CoreInv (State.powerUp config)

/-- Every transition keeps the invariant: the tape canonical and within `MEM_SIZE`, `0 <= code_ptr <= N`,
`0 <= input_ptr <= L`, `output` within `OUT_CAP`, `cause` non-zero exactly in FAULT, a true fault record, a halt only at
the program's end. -/
def Obligations.InvariantKeptByStep : Prop :=
  ∀ s t : State, CoreInv s → step s = .next t → CoreInv t

/-- Every operation of the host keeps the invariant and the configuration: START, accepted or refused and in any status,
RUN of any length, STEP, and ABORT. -/
def Obligations.InvariantKeptByHost : Prop :=
  ∀ (op : HostOp) (s t : State), CoreInv s → applyHost op s = .next t → CoreInv t ∧ t.config = s.config

/-- In every state that a host can bring a core to from power-up, by any operations in any order, the invariant holds. -/
def Obligations.ReachableStatesSatisfyInvariant : Prop :=
  ∀ (config : Config) (s : State), config.wf = true → Reachable config s → CoreInv s ∧ s.config = config

/-- In a state that satisfies the invariant the machine never stops: every number of transitions and every operation of the
host answers a next state, so that a fault of the core is the only way a run goes wrong. -/
def Obligations.MachineNeverStops : Prop :=
  ∀ s : State, CoreInv s →
    (∀ k, ∃ t, runFor k s = .next t) ∧ ∀ op, ∃ t, applyHost op s = .next t

/-- Input that was not read has no influence (44_io.md, the laws of the input stream): replace the input bytes from index
`n` on by others of the same number; as long as the run reads below `n` only, it is the same run. -/
def Obligations.UnreadInputHasNoInfluence : Prop :=
  ∀ (k n : Nat) (s t : State) (other : List Byte), other.length = s.inputs.length →
    other.take n = s.inputs.take n → runFor k s = .next t → t.inputPtr ≤ n →
    runFor k { s with inputs := other } = .next { t with inputs := other }

/-- Nothing of an earlier run survives START (70_reset_and_hazards.md section 1; decision D27): whatever two cores of one
configuration did before, after the same accepted START they go through the same states. -/
def Obligations.RunsAreIndependent : Prop :=
  ∀ (s₁ s₂ u₁ u₂ : State) (codeIn inputIn : List Byte) (k : Nat), s₁.config = s₂.config →
    startAccepted s₁.config codeIn inputIn = true →
    applyHost (.start codeIn inputIn) s₁ = .next u₁ → applyHost (.start codeIn inputIn) s₂ = .next u₂ →
    runFor k u₁ = runFor k u₂
end

