-- ==== Sys2Proof/Laws/State.lean ====
section
/-! SUPPORT. One lemma per field and per update of the state, so that no later proof unfolds a record update. -/

namespace Sys2Proof.Machine

open Sys2Proof

/-! ### State.setMem -/

@[simp] theorem setMem_config (s : State) (m : Memory) : (s.setMem m).config = s.config := rfl
@[simp] theorem setMem_code (s : State) (m : Memory) : (s.setMem m).code = s.code := rfl
@[simp] theorem setMem_inputs (s : State) (m : Memory) : (s.setMem m).inputs = s.inputs := rfl
@[simp] theorem setMem_codePtr (s : State) (m : Memory) : (s.setMem m).codePtr = s.codePtr := rfl
@[simp] theorem setMem_memPtr (s : State) (m : Memory) : (s.setMem m).memPtr = s.memPtr := rfl
@[simp] theorem setMem_inputPtr (s : State) (m : Memory) : (s.setMem m).inputPtr = s.inputPtr := rfl
@[simp] theorem setMem_mem (s : State) (m : Memory) : (s.setMem m).mem = m := rfl
@[simp] theorem setMem_output (s : State) (m : Memory) : (s.setMem m).output = s.output := rfl
@[simp] theorem setMem_status (s : State) (m : Memory) : (s.setMem m).status = s.status := rfl
@[simp] theorem setMem_cause (s : State) (m : Memory) : (s.setMem m).cause = s.cause := rfl
@[simp] theorem setMem_faultPc (s : State) (m : Memory) : (s.setMem m).faultPc = s.faultPc := rfl
@[simp] theorem setMem_faultArg (s : State) (m : Memory) : (s.setMem m).faultArg = s.faultArg := rfl

/-! ### State.pushOutput -/

@[simp] theorem pushOutput_config (s : State) (v : Byte) : (s.pushOutput v).config = s.config := rfl
@[simp] theorem pushOutput_code (s : State) (v : Byte) : (s.pushOutput v).code = s.code := rfl
@[simp] theorem pushOutput_inputs (s : State) (v : Byte) : (s.pushOutput v).inputs = s.inputs := rfl
@[simp] theorem pushOutput_codePtr (s : State) (v : Byte) : (s.pushOutput v).codePtr = s.codePtr := rfl
@[simp] theorem pushOutput_memPtr (s : State) (v : Byte) : (s.pushOutput v).memPtr = s.memPtr := rfl
@[simp] theorem pushOutput_inputPtr (s : State) (v : Byte) : (s.pushOutput v).inputPtr = s.inputPtr := rfl
@[simp] theorem pushOutput_mem (s : State) (v : Byte) : (s.pushOutput v).mem = s.mem := rfl
@[simp] theorem pushOutput_output (s : State) (v : Byte) : (s.pushOutput v).output = s.output ++ [v] := rfl
@[simp] theorem pushOutput_status (s : State) (v : Byte) : (s.pushOutput v).status = s.status := rfl
@[simp] theorem pushOutput_cause (s : State) (v : Byte) : (s.pushOutput v).cause = s.cause := rfl
@[simp] theorem pushOutput_faultPc (s : State) (v : Byte) : (s.pushOutput v).faultPc = s.faultPc := rfl
@[simp] theorem pushOutput_faultArg (s : State) (v : Byte) : (s.pushOutput v).faultArg = s.faultArg := rfl

/-! ### State.setCursor -/

@[simp] theorem setCursor_config (s : State) (p : Int) : (s.setCursor p).config = s.config := rfl
@[simp] theorem setCursor_code (s : State) (p : Int) : (s.setCursor p).code = s.code := rfl
@[simp] theorem setCursor_inputs (s : State) (p : Int) : (s.setCursor p).inputs = s.inputs := rfl
@[simp] theorem setCursor_codePtr (s : State) (p : Int) : (s.setCursor p).codePtr = s.codePtr := rfl
@[simp] theorem setCursor_memPtr (s : State) (p : Int) : (s.setCursor p).memPtr = p := rfl
@[simp] theorem setCursor_inputPtr (s : State) (p : Int) : (s.setCursor p).inputPtr = s.inputPtr := rfl
@[simp] theorem setCursor_mem (s : State) (p : Int) : (s.setCursor p).mem = s.mem := rfl
@[simp] theorem setCursor_output (s : State) (p : Int) : (s.setCursor p).output = s.output := rfl
@[simp] theorem setCursor_status (s : State) (p : Int) : (s.setCursor p).status = s.status := rfl
@[simp] theorem setCursor_cause (s : State) (p : Int) : (s.setCursor p).cause = s.cause := rfl
@[simp] theorem setCursor_faultPc (s : State) (p : Int) : (s.setCursor p).faultPc = s.faultPc := rfl
@[simp] theorem setCursor_faultArg (s : State) (p : Int) : (s.setCursor p).faultArg = s.faultArg := rfl

/-! ### State.advance -/

@[simp] theorem advance_config (s : State) : s.advance.config = s.config := rfl
@[simp] theorem advance_code (s : State) : s.advance.code = s.code := rfl
@[simp] theorem advance_inputs (s : State) : s.advance.inputs = s.inputs := rfl
@[simp] theorem advance_codePtr (s : State) : s.advance.codePtr = s.codePtr + 1 := rfl
@[simp] theorem advance_memPtr (s : State) : s.advance.memPtr = s.memPtr := rfl
@[simp] theorem advance_inputPtr (s : State) : s.advance.inputPtr = s.inputPtr := rfl
@[simp] theorem advance_mem (s : State) : s.advance.mem = s.mem := rfl
@[simp] theorem advance_output (s : State) : s.advance.output = s.output := rfl
@[simp] theorem advance_status (s : State) : s.advance.status = s.status := rfl
@[simp] theorem advance_cause (s : State) : s.advance.cause = s.cause := rfl
@[simp] theorem advance_faultPc (s : State) : s.advance.faultPc = s.faultPc := rfl
@[simp] theorem advance_faultArg (s : State) : s.advance.faultArg = s.faultArg := rfl

/-! ### State.jumpPast -/

@[simp] theorem jumpPast_config (s : State) (q : Int) : (s.jumpPast q).config = s.config := rfl
@[simp] theorem jumpPast_code (s : State) (q : Int) : (s.jumpPast q).code = s.code := rfl
@[simp] theorem jumpPast_inputs (s : State) (q : Int) : (s.jumpPast q).inputs = s.inputs := rfl
@[simp] theorem jumpPast_codePtr (s : State) (q : Int) : (s.jumpPast q).codePtr = q + 1 := rfl
@[simp] theorem jumpPast_memPtr (s : State) (q : Int) : (s.jumpPast q).memPtr = s.memPtr := rfl
@[simp] theorem jumpPast_inputPtr (s : State) (q : Int) : (s.jumpPast q).inputPtr = s.inputPtr := rfl
@[simp] theorem jumpPast_mem (s : State) (q : Int) : (s.jumpPast q).mem = s.mem := rfl
@[simp] theorem jumpPast_output (s : State) (q : Int) : (s.jumpPast q).output = s.output := rfl
@[simp] theorem jumpPast_status (s : State) (q : Int) : (s.jumpPast q).status = s.status := rfl
@[simp] theorem jumpPast_cause (s : State) (q : Int) : (s.jumpPast q).cause = s.cause := rfl
@[simp] theorem jumpPast_faultPc (s : State) (q : Int) : (s.jumpPast q).faultPc = s.faultPc := rfl
@[simp] theorem jumpPast_faultArg (s : State) (q : Int) : (s.jumpPast q).faultArg = s.faultArg := rfl

/-! ### State.bumpInput -/

@[simp] theorem bumpInput_config (s : State) : s.bumpInput.config = s.config := rfl
@[simp] theorem bumpInput_code (s : State) : s.bumpInput.code = s.code := rfl
@[simp] theorem bumpInput_inputs (s : State) : s.bumpInput.inputs = s.inputs := rfl
@[simp] theorem bumpInput_codePtr (s : State) : s.bumpInput.codePtr = s.codePtr := rfl
@[simp] theorem bumpInput_memPtr (s : State) : s.bumpInput.memPtr = s.memPtr := rfl
@[simp] theorem bumpInput_inputPtr (s : State) : s.bumpInput.inputPtr = s.inputPtr + 1 := rfl
@[simp] theorem bumpInput_mem (s : State) : s.bumpInput.mem = s.mem := rfl
@[simp] theorem bumpInput_output (s : State) : s.bumpInput.output = s.output := rfl
@[simp] theorem bumpInput_status (s : State) : s.bumpInput.status = s.status := rfl
@[simp] theorem bumpInput_cause (s : State) : s.bumpInput.cause = s.cause := rfl
@[simp] theorem bumpInput_faultPc (s : State) : s.bumpInput.faultPc = s.faultPc := rfl
@[simp] theorem bumpInput_faultArg (s : State) : s.bumpInput.faultArg = s.faultArg := rfl

/-! ### State.takeFault -/

@[simp] theorem takeFault_config (s : State) (what : Raised) : (s.takeFault what).config = s.config := rfl
@[simp] theorem takeFault_code (s : State) (what : Raised) : (s.takeFault what).code = s.code := rfl
@[simp] theorem takeFault_inputs (s : State) (what : Raised) : (s.takeFault what).inputs = s.inputs := rfl
@[simp] theorem takeFault_codePtr (s : State) (what : Raised) : (s.takeFault what).codePtr = s.codePtr := rfl
@[simp] theorem takeFault_memPtr (s : State) (what : Raised) : (s.takeFault what).memPtr = s.memPtr := rfl
@[simp] theorem takeFault_inputPtr (s : State) (what : Raised) : (s.takeFault what).inputPtr = s.inputPtr := rfl
@[simp] theorem takeFault_mem (s : State) (what : Raised) : (s.takeFault what).mem = s.mem := rfl
@[simp] theorem takeFault_output (s : State) (what : Raised) : (s.takeFault what).output = s.output := rfl
@[simp] theorem takeFault_status (s : State) (what : Raised) : (s.takeFault what).status = .fault := rfl
@[simp] theorem takeFault_cause (s : State) (what : Raised) : (s.takeFault what).cause = what.cause := rfl
@[simp] theorem takeFault_faultPc (s : State) (what : Raised) : (s.takeFault what).faultPc = s.codePtr := rfl
@[simp] theorem takeFault_faultArg (s : State) (what : Raised) : (s.takeFault what).faultArg = what.arg := rfl

/-! ### State.halt -/

@[simp] theorem halt_config (s : State) : s.halt.config = s.config := rfl
@[simp] theorem halt_code (s : State) : s.halt.code = s.code := rfl
@[simp] theorem halt_inputs (s : State) : s.halt.inputs = s.inputs := rfl
@[simp] theorem halt_codePtr (s : State) : s.halt.codePtr = s.codePtr := rfl
@[simp] theorem halt_memPtr (s : State) : s.halt.memPtr = s.memPtr := rfl
@[simp] theorem halt_inputPtr (s : State) : s.halt.inputPtr = s.inputPtr := rfl
@[simp] theorem halt_mem (s : State) : s.halt.mem = s.mem := rfl
@[simp] theorem halt_output (s : State) : s.halt.output = s.output := rfl
@[simp] theorem halt_status (s : State) : s.halt.status = .halted := rfl
@[simp] theorem halt_cause (s : State) : s.halt.cause = s.cause := rfl
@[simp] theorem halt_faultPc (s : State) : s.halt.faultPc = s.faultPc := rfl
@[simp] theorem halt_faultArg (s : State) : s.halt.faultArg = s.faultArg := rfl

/-! ### State.stop -/

@[simp] theorem stop_config (s : State) : s.stop.config = s.config := rfl
@[simp] theorem stop_code (s : State) : s.stop.code = s.code := rfl
@[simp] theorem stop_inputs (s : State) : s.stop.inputs = s.inputs := rfl
@[simp] theorem stop_codePtr (s : State) : s.stop.codePtr = s.codePtr := rfl
@[simp] theorem stop_memPtr (s : State) : s.stop.memPtr = s.memPtr := rfl
@[simp] theorem stop_inputPtr (s : State) : s.stop.inputPtr = s.inputPtr := rfl
@[simp] theorem stop_mem (s : State) : s.stop.mem = s.mem := rfl
@[simp] theorem stop_output (s : State) : s.stop.output = s.output := rfl
@[simp] theorem stop_status (s : State) : s.stop.status = .stopped := rfl
@[simp] theorem stop_cause (s : State) : s.stop.cause = s.cause := rfl
@[simp] theorem stop_faultPc (s : State) : s.stop.faultPc = s.faultPc := rfl
@[simp] theorem stop_faultArg (s : State) : s.stop.faultArg = s.faultArg := rfl

end Sys2Proof.Machine
end

