-- ==== Sys2Proof/Laws/Memory.lean ====
section
/-! SUPPORT. The laws of the tape as data: a read after a write, and that every operation keeps the canonical form. -/

namespace Sys2Proof.Machine

open Sys2Proof

@[simp] theorem Memory.read_nil (a : Nat) : Memory.read [] a = blankCell := rfl

theorem Memory.read_cons (k : Nat) (v : Byte) (rest : Memory) (a : Nat) :
    Memory.read ((k, v) :: rest) a = if k = a then v else Memory.read rest a := rfl

theorem Memory.read_put (m : Memory) (a b : Nat) (v : Byte) :
    (m.put a v).read b = if b = a then v else m.read b := by
  induction m with
  | nil => simp [Memory.put, Memory.read, eq_comm]
  | cons cell rest ih =>
    obtain ⟨k, w⟩ := cell
    simp only [Memory.put]
    split
    · simp [Memory.read_cons, eq_comm]
    · split
      · next h =>
        subst h
        by_cases hb : a = b
        · subst hb; simp [Memory.read_cons]
        · simp [Memory.read_cons, hb, Ne.symm hb]
      · simp only [Memory.read_cons, ih]
        by_cases hk : k = b
        · subst hk; simp_all [eq_comm]
        · simp [hk]

theorem Memory.read_erase (m : Memory) (a b : Nat) :
    (m.erase a).read b = if b = a then blankCell else m.read b := by
  induction m with
  | nil => simp [Memory.erase]
  | cons cell rest ih =>
    obtain ⟨k, w⟩ := cell
    simp only [Memory.erase]
    split
    · next h =>
      subst h
      by_cases hb : b = k
      · subst hb; simp [ih]
      · simp [ih, hb, Memory.read_cons, Ne.symm hb]
    · simp only [Memory.read_cons, ih]
      by_cases hk : k = b
      · subst hk; simp_all
      · simp [hk]

/-- A read after a write: the value at the written address, the old byte elsewhere. -/
theorem Memory.read_write (m : Memory) (a b : Nat) (v : Byte) :
    (m.write a v).read b = if b = a then v else m.read b := by
  unfold Memory.write
  split
  · next h => rw [Memory.read_erase, h]
  · rw [Memory.read_put]

@[simp] theorem Memory.read_write_same (m : Memory) (a : Nat) (v : Byte) : (m.write a v).read a = v := by
  simp [Memory.read_write]

theorem Memory.read_write_other (m : Memory) {a b : Nat} (v : Byte) (h : b ≠ a) :
    (m.write a v).read b = m.read b := by
  simp [Memory.read_write, h]

theorem Memory.wfFrom_cons (lo k : Nat) (v : Byte) (rest : Memory) :
    Memory.wfFrom lo ((k, v) :: rest) = true ↔ lo ≤ k ∧ v ≠ blankCell ∧ Memory.wfFrom (k + 1) rest = true := by
  simp [Memory.wfFrom, and_assoc]

theorem Memory.wfFrom_mono {lo hi : Nat} (m : Memory) (h : lo ≤ hi) (hm : Memory.wfFrom hi m = true) :
    Memory.wfFrom lo m = true := by
  cases m with
  | nil => rfl
  | cons cell rest =>
    rw [Memory.wfFrom_cons] at hm ⊢
    exact ⟨le_trans h hm.1, hm.2⟩

/-- Below its lowest address a canonical tape lists nothing. -/
theorem Memory.read_below {lo a : Nat} (m : Memory) (hm : Memory.wfFrom lo m = true) (h : a < lo) :
    m.read a = blankCell := by
  induction m generalizing lo with
  | nil => rfl
  | cons cell rest ih =>
    rw [Memory.wfFrom_cons] at hm
    rw [Memory.read_cons, if_neg (by omega)]
    exact ih hm.2.2 (by omega)

theorem Memory.wfFrom_put {lo a : Nat} {v : Byte} (m : Memory) (hv : v ≠ blankCell) (ha : lo ≤ a)
    (hm : Memory.wfFrom lo m = true) : Memory.wfFrom lo (m.put a v) = true := by
  induction m generalizing lo with
  | nil => simp [Memory.put, Memory.wfFrom, hv, ha]
  | cons cell rest ih =>
    obtain ⟨k, w⟩ := cell
    rw [Memory.wfFrom_cons] at hm
    simp only [Memory.put]
    split
    · simp only [Memory.wfFrom_cons]
      exact ⟨ha, hv, by omega, hm.2⟩
    · split
      · next h => subst h; exact (Memory.wfFrom_cons ..).mpr ⟨ha, hv, hm.2.2⟩
      · exact (Memory.wfFrom_cons ..).mpr ⟨hm.1, hm.2.1, ih (by omega) hm.2.2⟩

theorem Memory.wfFrom_erase {lo : Nat} (m : Memory) (a : Nat) (hm : Memory.wfFrom lo m = true) :
    Memory.wfFrom lo (m.erase a) = true := by
  induction m generalizing lo with
  | nil => rfl
  | cons cell rest ih =>
    rw [Memory.wfFrom_cons] at hm
    simp only [Memory.erase]
    split
    · exact Memory.wfFrom_mono _ (by omega) (ih hm.2.2)
    · exact (Memory.wfFrom_cons ..).mpr ⟨hm.1, hm.2.1, ih hm.2.2⟩

/-- A write keeps the canonical form. -/
theorem Memory.wf_write (m : Memory) (a : Nat) (v : Byte) (hm : m.wf = true) : (m.write a v).wf = true := by
  unfold Memory.write Memory.wf
  split
  · exact Memory.wfFrom_erase m a hm
  · next h => exact Memory.wfFrom_put m h (by omega) hm

theorem Memory.within_cons (k : Nat) (v : Byte) (rest : Memory) (size : Nat) :
    Memory.within ((k, v) :: rest) size = true ↔ k < size ∧ rest.within size = true := by
  simp [Memory.within]

theorem Memory.within_put {a size : Nat} {v : Byte} (m : Memory) (ha : a < size) (hm : m.within size = true) :
    (m.put a v).within size = true := by
  induction m with
  | nil => simp [Memory.put, Memory.within, ha]
  | cons cell rest ih =>
    rw [Memory.within_cons] at hm
    simp only [Memory.put]
    split
    · simp only [Memory.within_cons]; exact ⟨ha, hm⟩
    · split
      · exact (Memory.within_cons ..).mpr ⟨ha, hm.2⟩
      · exact (Memory.within_cons ..).mpr ⟨hm.1, ih hm.2⟩

theorem Memory.within_erase {size : Nat} (m : Memory) (a : Nat) (hm : m.within size = true) :
    (m.erase a).within size = true := by
  induction m with
  | nil => rfl
  | cons cell rest ih =>
    rw [Memory.within_cons] at hm
    simp only [Memory.erase]
    split
    · exact ih hm.2
    · exact (Memory.within_cons ..).mpr ⟨hm.1, ih hm.2⟩

/-- A write to a cell of the tape lists cells of the tape only. -/
theorem Memory.within_write {a size : Nat} (m : Memory) (v : Byte) (ha : a < size) (hm : m.within size = true) :
    (m.write a v).within size = true := by
  unfold Memory.write
  split
  · exact Memory.within_erase m a hm
  · exact Memory.within_put m ha hm

end Sys2Proof.Machine
end

