-- ==== Sys2Proof/Laws/Ops.lean ====
section
/-! SUPPORT. One spec lemma per shared operation, which proofs cite in place of its definition. -/

namespace Sys2Proof.Machine

open Sys2Proof

/-! ### Outcomes of the step engine -/

@[simp] theorem stepResult_ok_bind {α β : Type} (v : α) (f : α → StepResult β) :
    ((Except.ok v : StepResult α) >>= f) = f v := rfl

@[simp] theorem stepResult_error_bind {α β : Type} (e : StepStop) (f : α → StepResult β) :
    ((Except.error e : StepResult α) >>= f) = .error e := rfl

@[simp] theorem stepResult_pure {α : Type} (v : α) : (pure v : StepResult α) = .ok v := rfl

@[simp] theorem settle_ok (s t : State) : settle s (.ok t) = .next t := rfl

@[simp] theorem settle_raised (s : State) (what : Raised) :
    settle s (.error (.raised what)) = .next (s.takeFault what) := rfl

@[simp] theorem settle_stuck (s : State) (why : Fault) : settle s (.error (.stuck why)) = .fault why := rfl

/-- Everything a finished step can be: a committed state, or a fault's entry in the state before the step. -/
theorem settle_next {s t : State} {r : StepResult State} (h : settle s r = .next t) :
    r = .ok t ∨ ∃ what, r = .error (.raised what) ∧ t = s.takeFault what := by
  match r, h with
  | .ok u, h => cases h; exact .inl rfl
  | .error (.raised what), h => cases h; exact .inr ⟨what, rfl, rfl⟩

/-! ### Raised faults -/

@[simp] theorem memBounds_cause (a : Int) : (Raised.memBounds a).cause = .memBounds := rfl
@[simp] theorem unbalanced_cause (dir : Dir) : (Raised.unbalanced dir).cause = .unbalanced := rfl
@[simp] theorem resourceLimit_cause (which : Resource) : (Raised.resourceLimit which).cause = .resourceLimit := rfl
@[simp] theorem memBounds_arg (a : Int) : (Raised.memBounds a).arg = a := rfl
@[simp] theorem unbalanced_arg (dir : Dir) : (Raised.unbalanced dir).arg = dir.step := rfl
@[simp] theorem pointerLimit_arg : (Raised.resourceLimit .pointer).arg = 0 := rfl
@[simp] theorem outputLimit_arg : (Raised.resourceLimit .output).arg = 1 := rfl

/-! ### Access primitives -/

theorem memRead_onTape {s : State} {a : Int} (h : onTape s.config a) : memRead s a = .ok (s.mem.read a.toNat) :=
  if_pos h

theorem memRead_offTape {s : State} {a : Int} (h : ¬ onTape s.config a) :
    memRead s a = .error (.raised (.memBounds a)) :=
  if_neg h

theorem memWrite_onTape {s : State} {a : Int} (v : Byte) (h : onTape s.config a) :
    memWrite s a v = .ok (s.setMem (s.mem.write a.toNat v)) :=
  if_pos h

theorem memWrite_offTape {s : State} {a : Int} (v : Byte) (h : ¬ onTape s.config a) :
    memWrite s a v = .error (.raised (.memBounds a)) :=
  if_neg h

theorem byteAt_eq_some {bytes : List Byte} {p : Int} {b : Byte} (h : byteAt bytes p = some b) :
    0 ≤ p ∧ p < bytes.length := by
  unfold byteAt at h
  split at h
  · have := (List.getElem?_eq_some_iff.mp h).1
    omega
  · cases h

theorem byteAt_inside {bytes : List Byte} {p : Int} (h0 : 0 ≤ p) (h1 : p < bytes.length) :
    byteAt bytes p = some (bytes[p.toNat]'(by omega)) := by
  unfold byteAt
  rw [if_pos h0]
  exact List.getElem?_eq_getElem (by omega)

theorem byteAt_outside {bytes : List Byte} {p : Int} (h : p < 0 ∨ bytes.length ≤ p) : byteAt bytes p = none := by
  unfold byteAt
  split
  · exact List.getElem?_eq_none (by omega)
  · rfl

theorem inRead_inside {s : State} {i : Int} {v : Byte} (h : byteAt s.inputs i = some v) : inRead s i = .ok v := by
  simp [inRead, h]

theorem inRead_outside {s : State} {i : Int} (h : byteAt s.inputs i = none) :
    inRead s i = .error (.stuck .inputReadOutsideStream) := by
  simp [inRead, h]

theorem moveCursor_fits {s : State} {delta : Int} (h : cursorFits s.config (s.memPtr + delta) = true) :
    moveCursor s delta = .ok (s.setCursor (s.memPtr + delta)) := by
  simp [moveCursor, h]

theorem moveCursor_leaves {s : State} {delta : Int} (h : cursorFits s.config (s.memPtr + delta) = false) :
    moveCursor s delta = .error (.raised (.resourceLimit .pointer)) := by
  simp [moveCursor, h]

theorem cursorFits_false_iff (config : Config) (p : Int) :
    cursorFits config p = false ↔ ∃ values, config.ptrRange = some values ∧ p ∉ values := by
  unfold cursorFits
  cases config.ptrRange <;> simp

theorem cursorFits_iff (config : Config) (p : Int) :
    cursorFits config p = true ↔ ∀ values, config.ptrRange = some values → p ∈ values := by
  unfold cursorFits
  cases config.ptrRange <;> simp

theorem outputFull_iff (s : State) : outputFull s = true ↔ ∃ cap, s.config.outCap = some cap ∧ cap ≤ s.output.length := by
  unfold outputFull
  cases s.config.outCap <;> simp

theorem outAppend_room {s : State} (v : Byte) (h : outputFull s = false) : outAppend s v = .ok (s.pushOutput v) := by
  simp [outAppend, h]

theorem outAppend_full {s : State} (v : Byte) (h : outputFull s = true) :
    outAppend s v = .error (.raised (.resourceLimit .output)) := by
  simp [outAppend, h]

@[simp] theorem cellIsZero_iff (v : Byte) : cellIsZero v = true ↔ v = 0 := by simp [cellIsZero]

@[simp] theorem cellIsZero_false_iff (v : Byte) : cellIsZero v = false ↔ v ≠ 0 := by simp [cellIsZero]

/-! ### The resolver's small definitions -/

@[simp] theorem dirStep_forward : Dir.forward.step = 1 := rfl
@[simp] theorem dirStep_backward : Dir.backward.step = -1 := rfl

@[simp] theorem count_pos (sc : Scan) (b : Byte) : (sc.count b).pos = sc.pos + sc.dir.step := rfl
@[simp] theorem count_depth (sc : Scan) (b : Byte) : (sc.count b).depth = sc.depth + bracketDelta b sc.dir := rfl
@[simp] theorem count_dir (sc : Scan) (b : Byte) : (sc.count b).dir = sc.dir := rfl
@[simp] theorem startScan_pos (p0 : Int) (dir : Dir) : (startScan p0 dir).pos = p0 + dir.step := rfl
@[simp] theorem startScan_depth (p0 : Int) (dir : Dir) : (startScan p0 dir).depth = 1 := rfl
@[simp] theorem startScan_dir (p0 : Int) (dir : Dir) : (startScan p0 dir).dir = dir := rfl

/-- One byte moves the nesting counter by at most one. -/
theorem bracketDelta_cases (b : Byte) (dir : Dir) :
    bracketDelta b dir = 1 ∨ bracketDelta b dir = -1 ∨ bracketDelta b dir = 0 := by
  unfold bracketDelta
  split_ifs <;> cases dir <;> simp

/-- A byte moves the nesting counter exactly when it is a bracket (R151). -/
theorem bracketDelta_ne_zero_iff (b : Byte) (dir : Dir) : bracketDelta b dir ≠ 0 ↔ b = 0x5B ∨ b = 0x5D := by
  unfold bracketDelta
  split_ifs <;> cases dir <;> simp_all

/-- What one position inside the program adds to the nesting counter and to the brackets scanned. -/
theorem depthAfter_succ {code : List Byte} {p0 : Int} {dir : Dir} {k : Nat} {b : Byte}
    (hb : codeRead code (p0 + dir.step * (k + 1)) = some b) :
    depthAfter code p0 dir (k + 1) = depthAfter code p0 dir k + bracketDelta b dir := by
  rw [depthAfter, hb]

theorem bracketsScanned_succ {code : List Byte} {p0 : Int} {dir : Dir} {k : Nat} {b : Byte}
    (hb : codeRead code (p0 + dir.step * (k + 1)) = some b) :
    bracketsScanned code p0 dir (k + 1) =
      bracketsScanned code p0 dir k + if b = 0x5B ∨ b = 0x5D then 1 else 0 := by
  rw [bracketsScanned, hb]

/-- One round of the scan loop. -/
theorem scanFrom_succ (code : List Byte) (rounds : Nat) (sc : Scan) :
    scanFrom code (rounds + 1) sc =
      match codeRead code sc.pos with
      | none => none
      | some b => if sc.depth + bracketDelta b sc.dir = 0 then some sc.pos else scanFrom code rounds (sc.count b) :=
  rfl

/-- Where a scan stops it stands on a byte of the program, and that byte brought the counter to 0. -/
theorem scanFrom_inside {code : List Byte} {rounds : Nat} {sc : Scan} {q : Int}
    (h : scanFrom code rounds sc = some q) : 0 ≤ q ∧ q < code.length := by
  induction rounds generalizing sc with
  | zero => cases h
  | succ rounds ih =>
    rw [scanFrom_succ] at h
    split at h
    · cases h
    · next b hb =>
      split at h
      · cases h; exact byteAt_eq_some hb
      · exact ih h

theorem resolveBracket_found {s : State} {dir : Dir} {q : Int} (h : matchBracket s.code s.codePtr dir = some q) :
    resolveBracket s dir = .ok q := by
  simp [resolveBracket, h]

theorem resolveBracket_missing {s : State} {dir : Dir} (h : matchBracket s.code s.codePtr dir = none) :
    resolveBracket s dir = .error (.raised (.unbalanced dir)) := by
  simp [resolveBracket, h]

end Sys2Proof.Machine
end

