-- ==== Sys2Proof/Laws/Exec.lean ====
section
/-! SUPPORT. Everything each handler can do, one equation per handler, and everything a transition can be. -/

namespace Sys2Proof.Machine

open Sys2Proof

/-! ### The handlers -/

theorem execPtrDec_eq (s : State) :
    exec .ptrDec s =
      .next (if cursorFits s.config (s.memPtr - 1) then (s.setCursor (s.memPtr - 1)).advance
        else s.takeFault (.resourceLimit .pointer)) := by
  show settle s _ = _
  by_cases h : cursorFits s.config (s.memPtr + -1) = true
  · simp [moveCursor_fits h, ← Int.sub_eq_add_neg] at *; simp [h]
  · rw [Bool.not_eq_true] at h
    simp [moveCursor_leaves h, ← Int.sub_eq_add_neg] at *; simp [h]

theorem execPtrInc_eq (s : State) :
    exec .ptrInc s =
      .next (if cursorFits s.config (s.memPtr + 1) then (s.setCursor (s.memPtr + 1)).advance
        else s.takeFault (.resourceLimit .pointer)) := by
  show settle s _ = _
  by_cases h : cursorFits s.config (s.memPtr + 1) = true
  · simp [moveCursor_fits h, h]
  · rw [Bool.not_eq_true] at h
    simp [moveCursor_leaves h, h]

theorem execCellDec_eq (s : State) :
    exec .cellDec s =
      .next (if onTape s.config s.memPtr then
          (s.setMem (s.mem.write s.memPtr.toNat (s.mem.read s.memPtr.toNat - 1))).advance
        else s.takeFault (.memBounds s.memPtr)) := by
  show settle s _ = _
  by_cases h : onTape s.config s.memPtr
  · simp [currentCell, storeCell, memRead_onTape h, memWrite_onTape _ h, h]
  · simp [currentCell, memRead_offTape h, h]

theorem execCellInc_eq (s : State) :
    exec .cellInc s =
      .next (if onTape s.config s.memPtr then
          (s.setMem (s.mem.write s.memPtr.toNat (s.mem.read s.memPtr.toNat + 1))).advance
        else s.takeFault (.memBounds s.memPtr)) := by
  show settle s _ = _
  by_cases h : onTape s.config s.memPtr
  · simp [currentCell, storeCell, memRead_onTape h, memWrite_onTape _ h, h]
  · simp [currentCell, memRead_offTape h, h]

theorem execLoopOpen_eq (s : State) :
    exec .loopOpen s =
      .next (if onTape s.config s.memPtr then
          if s.mem.read s.memPtr.toNat = 0 then
            match matchBracket s.code s.codePtr .forward with
            | some q => s.jumpPast q
            | none => s.takeFault (.unbalanced .forward)
          else s.advance
        else s.takeFault (.memBounds s.memPtr)) := by
  show settle s _ = _
  by_cases h : onTape s.config s.memPtr
  · by_cases hz : s.mem.read s.memPtr.toNat = 0#8
    · cases hm : matchBracket s.code s.codePtr .forward with
      | none => simp [currentCell, memRead_onTape h, h, hz, resolveBracket_missing hm]
      | some q => simp [currentCell, memRead_onTape h, h, hz, resolveBracket_found hm]
    · simp [currentCell, memRead_onTape h, h, hz]
  · simp [currentCell, memRead_offTape h, h]

theorem execLoopClose_eq (s : State) :
    exec .loopClose s =
      .next (if onTape s.config s.memPtr then
          if s.mem.read s.memPtr.toNat = 0 then s.advance
          else
            match matchBracket s.code s.codePtr .backward with
            | some q => s.jumpPast q
            | none => s.takeFault (.unbalanced .backward)
        else s.takeFault (.memBounds s.memPtr)) := by
  show settle s _ = _
  by_cases h : onTape s.config s.memPtr
  · by_cases hz : s.mem.read s.memPtr.toNat = 0#8
    · simp [currentCell, memRead_onTape h, h, hz]
    · cases hm : matchBracket s.code s.codePtr .backward with
      | none => simp [currentCell, memRead_onTape h, h, hz, resolveBracket_missing hm]
      | some q => simp [currentCell, memRead_onTape h, h, hz, resolveBracket_found hm]
  · simp [currentCell, memRead_offTape h, h]

/-- IN with a byte left to read. -/
theorem execIn_read {s : State} {v : Byte} (hv : byteAt s.inputs s.inputPtr = some v) :
    exec .input s =
      .next (if onTape s.config s.memPtr then (s.setMem (s.mem.write s.memPtr.toNat v)).bumpInput.advance
        else s.takeFault (.memBounds s.memPtr)) := by
  show settle s _ = _
  have hr : inputRemains s := (byteAt_eq_some hv).2
  by_cases h : onTape s.config s.memPtr
  · simp [hr, nextInput, inRead_inside hv, storeCell, memWrite_onTape _ h, h]
  · simp [hr, nextInput, inRead_inside hv, storeCell, memWrite_offTape _ h, h]

/-- IN on exhausted input. -/
theorem execIn_exhausted {s : State} (hx : s.inputs.length ≤ s.inputPtr) :
    exec .input s =
      .next (if onTape s.config s.memPtr then (s.setMem (s.mem.write s.memPtr.toNat 0)).advance
        else s.takeFault (.memBounds s.memPtr)) := by
  show settle s _ = _
  have hr : ¬ inputRemains s := Int.not_lt.mpr hx
  by_cases h : onTape s.config s.memPtr
  · simp [hr, storeCell, memWrite_onTape _ h, h]
  · simp [hr, storeCell, memWrite_offTape _ h, h]

/-- IN below the stream: a state that no run reaches (10_state.md R24). -/
theorem execIn_below {s : State} (hn : s.inputPtr < 0) : exec .input s = .fault .inputReadOutsideStream := by
  show settle s _ = _
  have hr : inputRemains s := by unfold inputRemains; omega
  simp [hr, nextInput, inRead_outside (byteAt_outside (.inl hn))]

theorem execOut_eq (s : State) :
    exec .output s =
      .next (if onTape s.config s.memPtr then
          if outputFull s then s.takeFault (.resourceLimit .output)
          else (s.pushOutput (s.mem.read s.memPtr.toNat)).advance
        else s.takeFault (.memBounds s.memPtr)) := by
  show settle s _ = _
  by_cases h : onTape s.config s.memPtr
  · cases hf : outputFull s with
    | true => simp [currentCell, memRead_onTape h, h, outAppend_full _ hf]
    | false => simp [currentCell, memRead_onTape h, h, outAppend_room _ hf]
  · simp [currentCell, memRead_offTape h, h]

theorem execNop_eq (b : Byte) (s : State) : exec (.nop b) s = .next s.advance := rfl

/-! ### Everything an instruction can do -/

/-- The six instructions that access the tape (60_exceptions.md R201). -/
def usesTape (i : Instr) : Prop :=
  i = .cellDec ∨ i = .cellInc ∨ i = .loopOpen ∨ i = .loopClose ∨ i = .input ∨ i = .output

/-- `Effect i s t`: one of the ways in which instruction `i` leads from `s` to a next state `t`, with its guards. -/
inductive Effect : Instr → State → State → Prop where
  | moveLeft {s : State} : cursorFits s.config (s.memPtr - 1) = true →
      Effect .ptrDec s (s.setCursor (s.memPtr - 1)).advance
  | moveRight {s : State} : cursorFits s.config (s.memPtr + 1) = true →
      Effect .ptrInc s (s.setCursor (s.memPtr + 1)).advance
  | limitLeft {s : State} : cursorFits s.config (s.memPtr - 1) = false →
      Effect .ptrDec s (s.takeFault (.resourceLimit .pointer))
  | limitRight {s : State} : cursorFits s.config (s.memPtr + 1) = false →
      Effect .ptrInc s (s.takeFault (.resourceLimit .pointer))
  | offTape {i : Instr} {s : State} : usesTape i → ¬ onTape s.config s.memPtr →
      Effect i s (s.takeFault (.memBounds s.memPtr))
  | decrement {s : State} : onTape s.config s.memPtr →
      Effect .cellDec s (s.setMem (s.mem.write s.memPtr.toNat (s.mem.read s.memPtr.toNat - 1))).advance
  | increment {s : State} : onTape s.config s.memPtr →
      Effect .cellInc s (s.setMem (s.mem.write s.memPtr.toNat (s.mem.read s.memPtr.toNat + 1))).advance
  | skipLoop {s : State} {q : Int} : onTape s.config s.memPtr → s.mem.read s.memPtr.toNat = 0 →
      matchBracket s.code s.codePtr .forward = some q → Effect .loopOpen s (s.jumpPast q)
  | noClose {s : State} : onTape s.config s.memPtr → s.mem.read s.memPtr.toNat = 0 →
      matchBracket s.code s.codePtr .forward = none → Effect .loopOpen s (s.takeFault (.unbalanced .forward))
  | enterLoop {s : State} : onTape s.config s.memPtr → s.mem.read s.memPtr.toNat ≠ 0 →
      Effect .loopOpen s s.advance
  | repeatLoop {s : State} {q : Int} : onTape s.config s.memPtr → s.mem.read s.memPtr.toNat ≠ 0 →
      matchBracket s.code s.codePtr .backward = some q → Effect .loopClose s (s.jumpPast q)
  | noOpen {s : State} : onTape s.config s.memPtr → s.mem.read s.memPtr.toNat ≠ 0 →
      matchBracket s.code s.codePtr .backward = none → Effect .loopClose s (s.takeFault (.unbalanced .backward))
  | leaveLoop {s : State} : onTape s.config s.memPtr → s.mem.read s.memPtr.toNat = 0 →
      Effect .loopClose s s.advance
  | readInput {s : State} {v : Byte} : onTape s.config s.memPtr → byteAt s.inputs s.inputPtr = some v →
      Effect .input s (s.setMem (s.mem.write s.memPtr.toNat v)).bumpInput.advance
  | exhausted {s : State} : onTape s.config s.memPtr → s.inputs.length ≤ s.inputPtr →
      Effect .input s (s.setMem (s.mem.write s.memPtr.toNat 0)).advance
  | append {s : State} : onTape s.config s.memPtr → outputFull s = false →
      Effect .output s (s.pushOutput (s.mem.read s.memPtr.toNat)).advance
  | limitOutput {s : State} : onTape s.config s.memPtr → outputFull s = true →
      Effect .output s (s.takeFault (.resourceLimit .output))
  | skip {b : Byte} {s : State} : Effect (.nop b) s s.advance

/-- IN finds a byte, finds the input exhausted, or stands below the stream. -/
theorem input_cases (s : State) :
    s.inputPtr < 0 ∨ (∃ v, byteAt s.inputs s.inputPtr = some v) ∨ s.inputs.length ≤ s.inputPtr := by
  by_cases h0 : 0 ≤ s.inputPtr
  · by_cases h1 : s.inputPtr < s.inputs.length
    · exact .inr (.inl ⟨_, byteAt_inside h0 h1⟩)
    · exact .inr (.inr (by omega))
  · exact .inl (by omega)

/-- The inversion of `exec`: a next state comes about in one of the ways of `Effect`. -/
theorem exec_effect {i : Instr} {s t : State} (h : exec i s = .next t) : Effect i s t := by
  cases i with
  | ptrDec =>
    rw [execPtrDec_eq] at h
    cases h
    split
    · next hf => exact .moveLeft hf
    · next hf => exact .limitLeft (by simpa using hf)
  | ptrInc =>
    rw [execPtrInc_eq] at h
    cases h
    split
    · next hf => exact .moveRight hf
    · next hf => exact .limitRight (by simpa using hf)
  | cellDec =>
    rw [execCellDec_eq] at h
    cases h
    split
    · next hon => exact .decrement hon
    · next hoff => exact .offTape (by simp [usesTape]) hoff
  | cellInc =>
    rw [execCellInc_eq] at h
    cases h
    split
    · next hon => exact .increment hon
    · next hoff => exact .offTape (by simp [usesTape]) hoff
  | loopOpen =>
    rw [execLoopOpen_eq] at h
    cases h
    split
    · next hon =>
      split
      · next hz =>
        split
        · next q hq => exact .skipLoop hon hz hq
        · next hq => exact .noClose hon hz hq
      · next hz => exact .enterLoop hon hz
    · next hoff => exact .offTape (by simp [usesTape]) hoff
  | loopClose =>
    rw [execLoopClose_eq] at h
    cases h
    split
    · next hon =>
      split
      · next hz => exact .leaveLoop hon hz
      · next hz =>
        split
        · next q hq => exact .repeatLoop hon hz hq
        · next hq => exact .noOpen hon hz hq
    · next hoff => exact .offTape (by simp [usesTape]) hoff
  | input =>
    obtain hn | ⟨v, hv⟩ | hx := input_cases s
    · rw [execIn_below hn] at h
      cases h
    · rw [execIn_read hv] at h
      cases h
      split
      · next hon => exact .readInput hon hv
      · next hoff => exact .offTape (by simp [usesTape]) hoff
    · rw [execIn_exhausted hx] at h
      cases h
      split
      · next hon => exact .exhausted hon hx
      · next hoff => exact .offTape (by simp [usesTape]) hoff
  | output =>
    rw [execOut_eq] at h
    cases h
    split
    · next hon =>
      split
      · next hf => exact .limitOutput hon hf
      · next hf => exact .append hon (by simpa using hf)
    · next hoff => exact .offTape (by simp [usesTape]) hoff
  | nop b =>
    cases h
    exact .skip

/-- Every handler answers a next state where the input pointer is not below the stream. -/
theorem exec_answers (i : Instr) {s : State} (h0 : 0 ≤ s.inputPtr) : ∃ t, exec i s = .next t := by
  cases i with
  | ptrDec => exact ⟨_, execPtrDec_eq s⟩
  | ptrInc => exact ⟨_, execPtrInc_eq s⟩
  | cellDec => exact ⟨_, execCellDec_eq s⟩
  | cellInc => exact ⟨_, execCellInc_eq s⟩
  | loopOpen => exact ⟨_, execLoopOpen_eq s⟩
  | loopClose => exact ⟨_, execLoopClose_eq s⟩
  | input =>
    obtain hn | ⟨v, hv⟩ | hx := input_cases s
    · omega
    · exact ⟨_, execIn_read hv⟩
    · exact ⟨_, execIn_exhausted hx⟩
  | output => exact ⟨_, execOut_eq s⟩
  | nop b => exact ⟨_, execNop_eq b s⟩

/-! ### The transition -/

/-- Everything a step that answers a next state can be: the quiet wait, the halt, or one instruction. -/
theorem step_next {s t : State} (h : step s = .next t) :
    s.config.wf = true ∧
      ((s.status ≠ .running ∧ t = s) ∨
        (s.status = .running ∧ atEnd s ∧ t = s.halt) ∨
        (s.status = .running ∧ ¬ atEnd s ∧ ∃ i, fetch s = some i ∧ exec i s = .next t)) := by
  unfold step transition at h
  split at h
  case isFalse => cases h
  case isTrue hwf =>
    refine ⟨hwf, ?_⟩
    split at h
    case h_1 hs =>
      unfold loopIteration at h
      split at h
      case isTrue he => cases h; exact .inr (.inl ⟨hs, he, rfl⟩)
      case isFalse he =>
        split at h
        case h_1 i hi => exact .inr (.inr ⟨hs, he, i, hi, h⟩)
        case h_2 => cases h
    all_goals
      next hs => cases h; exact .inl ⟨by simp [hs], rfl⟩

theorem step_quiet {s : State} (hwf : s.config.wf = true) (hs : s.status ≠ .running) : step s = .next s := by
  unfold step transition
  rw [if_pos hwf]
  cases h : s.status <;> simp_all

theorem step_running {s : State} (hwf : s.config.wf = true) (hs : s.status = .running) : step s = loopIteration s := by
  unfold step transition
  rw [if_pos hwf, hs]

theorem step_runs {s : State} {i : Instr} (hwf : s.config.wf = true) (hs : s.status = .running)
    (hi : fetch s = some i) : step s = exec i s := by
  have hin : ¬ atEnd s := by
    unfold fetch codeRead at hi
    cases hb : byteAt s.code s.codePtr with
    | none => simp [hb] at hi
    | some b => exact Int.not_le.mpr (byteAt_eq_some hb).2
  rw [step_running hwf hs, loopIteration, if_neg hin, hi]

/-- What `withFetchWord` places is what the next step runs (log 9). -/
theorem step_withFetchWord {s : State} (nbits w : Nat) (hwf : s.config.wf = true) :
    step (s.withFetchWord nbits w) =
      exec (decodeByte (BitVec.ofNat 8 (w % 2 ^ nbits))) (s.withFetchWord nbits w) := by
  refine step_runs hwf rfl ?_
  have hb : byteAt (s.withFetchWord nbits w).code (s.withFetchWord nbits w).codePtr =
      some (BitVec.ofNat 8 (w % 2 ^ nbits)) := by
    unfold State.withFetchWord loadForFetch byteAt placeBytes tableBytes
    simp only [Int.natCast_nonneg, if_true, Int.toNat_natCast]
    have hl : (s.code.take s.codePtr.toNat ++ List.replicate (s.codePtr.toNat - s.code.length) (0 : Byte)).length =
        s.codePtr.toNat := by
      simp
      omega
    rw [List.append_assoc (_ ++ _), List.getElem?_append_right (by omega), hl]
    simp
  unfold fetch codeRead
  rw [hb]
  rfl

/-! ### Runs -/

@[simp] theorem runFor_zero (s : State) : runFor 0 s = .next s := rfl

theorem runFor_succ_next {k : Nat} {s t : State} (h : runFor (k + 1) s = .next t) :
    ∃ u, step s = .next u ∧ runFor k u = .next t := by
  unfold runFor at h
  split at h
  · exact ⟨_, ‹_›, h⟩
  · cases h
  · cases h

theorem execAll_cons_next {i : Instr} {rest : List Instr} {s t : State} (h : execAll (i :: rest) s = .next t) :
    ∃ u, exec i s = .next u ∧ execAll rest u = .next t := by
  unfold execAll at h
  split at h
  · exact ⟨_, ‹_›, h⟩
  · cases h
  · cases h

/-- One step and then the rest. -/
theorem runFor_succ {s u : State} (k : Nat) (h : step s = .next u) : runFor (k + 1) s = runFor k u := by
  rw [runFor, h]

/-- A quiescent status is kept by every number of transitions. -/
theorem runFor_quiet (k : Nat) {s : State} (hwf : s.config.wf = true) (hs : s.status ≠ .running) :
    runFor k s = .next s := by
  induction k with
  | zero => rfl
  | succ k ih => rw [runFor_succ k (step_quiet hwf hs), ih]

theorem applyHost_exists {op : HostOp} {s t : State} (h : applyHost op s = .next t) : s.config.wf = true := by
  unfold applyHost at h
  split at h
  · assumption
  · cases h

theorem applyHost_start {s : State} (codeIn inputIn : List Byte) (hwf : s.config.wf = true) :
    applyHost (.start codeIn inputIn) s = .next (start codeIn inputIn s) :=
  if_pos hwf

theorem applyHost_run {s : State} (k : Nat) (hwf : s.config.wf = true) : applyHost (.run k) s = runFor k s := if_pos hwf

theorem applyHost_step {s : State} (hwf : s.config.wf = true) : applyHost .step s = step s := if_pos hwf

theorem applyHost_abort {s : State} (hwf : s.config.wf = true) : applyHost .abort s = .next (abort s) := if_pos hwf

@[simp] theorem applyHostAll_nil (s : State) : applyHostAll [] s = .next s := rfl

theorem applyHostAll_cons_next {op : HostOp} {s u : State} (rest : List HostOp) (h : applyHost op s = .next u) :
    applyHostAll (op :: rest) s = applyHostAll rest u := by
  rw [applyHostAll, h]

@[simp] theorem start_transitions (codeIn inputIn : List Byte) : (HostOp.start codeIn inputIn).transitions = 0 := rfl
@[simp] theorem run_transitions (k : Nat) : (HostOp.run k).transitions = k := rfl
@[simp] theorem step_transitions : HostOp.step.transitions = 1 := rfl
@[simp] theorem abort_transitions : HostOp.abort.transitions = 0 := rfl

/-! ### Counts -/

theorem stepCount_succ {s u : State} (k : Nat) (h : step s = .next u) :
    stepCount (k + 1) s = (if callsStep s then 1 else 0) + stepCount k u := by
  simp only [stepCount, h]

theorem committedSteps_succ {s u : State} (k : Nat) (h : step s = .next u) :
    committedSteps (k + 1) s = (if callsStep s && decide (u.status = .running) then 1 else 0) + committedSteps k u := by
  simp only [committedSteps, h]

theorem callsStep_iff (s : State) : callsStep s = true ↔ s.status = .running ∧ ¬ atEnd s := by
  simp [callsStep]

/-! ### The core's runs -/

/-- The core's runs are the host's runs of the machine. -/
theorem core_run_eq_runFor (k : Nat) (s : State) : Sys2Proof.core.run k s = runFor k s := by
  induction k generalizing s with
  | zero => rfl
  | succ k ih =>
    have hs : Sys2Proof.core.step s = step s := rfl
    simp only [Host.Core.run, runFor, hs]
    cases step s with
    | next u => exact ih u
    | fault r => rfl
    | refused r => rfl

end Sys2Proof.Machine
end

