-- ==== Sys2Proof/Laws/PerInstr.lean ====
section
/-! SUPPORT. A statement per instruction as syntax: every instruction is exactly one byte (30_encoding.md R80, R86). -/

namespace Sys2Proof.Laws.OneByte

open Sys2Proof

/-- An instruction's encoding has one byte, and the decoder takes exactly that byte off the front. -/
def Statement (i : Instr) : Prop :=
  (encode i).length = 1 ∧ ∀ rest, decode (encode i ++ rest) = .ok (decodeByte (encodeByte i), rest)

theorem ptrDec : Statement .ptrDec := ⟨rfl, fun _ => rfl⟩
theorem ptrInc : Statement .ptrInc := ⟨rfl, fun _ => rfl⟩
theorem cellDec : Statement .cellDec := ⟨rfl, fun _ => rfl⟩
theorem cellInc : Statement .cellInc := ⟨rfl, fun _ => rfl⟩
theorem loopOpen : Statement .loopOpen := ⟨rfl, fun _ => rfl⟩
theorem loopClose : Statement .loopClose := ⟨rfl, fun _ => rfl⟩
theorem input : Statement .input := ⟨rfl, fun _ => rfl⟩
theorem output : Statement .output := ⟨rfl, fun _ => rfl⟩
theorem nop (byte : Byte) : Statement (.nop byte) := ⟨rfl, fun _ => rfl⟩

end Sys2Proof.Laws.OneByte
end

