-- ==== Sys2Proof/Tests/Slice0.lean ====
section
/-! SUPPORT. Tests of the model against spec/95_test_vectors.md and the tables of the spec (each names its row), and for every
statement with hypotheses a concrete state that meets them. -/

namespace Sys2Proof.Tests

open Sys2Proof Sys2Proof.Machine

/-! ### Helpers -/

/-- The state an outcome answers. -/
def nextOf : Host.Outcome State Fault Refusal → Option State
  | .next t => some t
  | .fault _ => none
  | .refused _ => none

/-- A running core of `size` cells at the start of a run. -/
def core (size : Nat) (code input : List Byte) : State :=
  State.started { Config.standard with memSize := size } code input

/-- The parts a fault records, with `code_ptr`, after one instruction. -/
def faultOf (o : Host.Outcome State Fault Refusal) : Option (Cause × Int × Int × Int) :=
  (nextOf o).map fun t => (t.cause, t.faultPc, t.faultArg, t.codePtr)

/-- A core with the given cursor and `code_ptr`. -/
def at_ (s : State) (codePtr memPtr : Int) : State := { s with codePtr := codePtr, memPtr := memPtr }

/-- A core with the finite `PTR_RANGE` of vector P6. -/
def ranged (s : State) : State := { s with config := { s.config with ptrRange := some [-1, 0, 1] } }

/-- A core with the given `OUT_CAP`. -/
def capped (s : State) (cap : Nat) : State := { s with config := { s.config with outCap := some cap } }

/-- A core with one cell set. -/
def withCell (s : State) (a : Nat) (v : Byte) : State := s.setMem (s.mem.write a v)

/-! ### Well-formedness: each check refuses an ill-formed term -/

theorem test_nop_of_recognized_byte_is_ill_formed :
    (recognizedBytes.map fun b => (Instr.nop b).wf) = List.replicate 8 false := by decide

theorem test_nop_of_other_byte_is_well_formed : (Instr.nop 0x61).wf = true := by decide

theorem test_config_without_cells_is_ill_formed : Config.wf { Config.standard with memSize := 0 } = false := by decide

theorem test_unsorted_tape_is_not_canonical : Memory.wf [(5, 1), (3, 1)] = false := by decide

theorem test_repeated_address_is_not_canonical : Memory.wf [(3, 1), (3, 2)] = false := by decide

theorem test_blank_entry_is_not_canonical : Memory.wf [(3, 0)] = false := by decide

theorem test_tape_beyond_its_size : Memory.within [(4, 1)] 4 = false := by decide

/-! ### Decoding: the words of 30_encoding.md R81, written out in bits -/

theorem test_decode_ptrDec : decodeTableWord 8 0b0011_1100 = some .ptrDec := by decide
theorem test_decode_ptrInc : decodeTableWord 8 0b0011_1110 = some .ptrInc := by decide
theorem test_decode_cellDec : decodeTableWord 8 0b0010_1101 = some .cellDec := by decide
theorem test_decode_cellInc : decodeTableWord 8 0b0010_1011 = some .cellInc := by decide
theorem test_decode_loopOpen : decodeTableWord 8 0b0101_1011 = some .loopOpen := by decide
theorem test_decode_loopClose : decodeTableWord 8 0b0101_1101 = some .loopClose := by decide
theorem test_decode_input : decodeTableWord 8 0b0010_1100 = some .input := by decide
theorem test_decode_output : decodeTableWord 8 0b0010_1110 = some .output := by decide

/-- R82: `0xBC` differs from `<` in bit 7 only and is a NOP. -/
theorem test_decode_bit7_counts : decodeTableWord 8 0b1011_1100 = some (.nop 0xBC) := by decide

theorem test_decode_nothing_by_name : decode [] = .error .endOfBytes := by rfl

/-- R82, R89: the eight values are pairwise distinct. -/
theorem test_recognized_bytes_distinct : recognizedBytes.Nodup := by decide

/-- R191: 248 byte values are NOPs. -/
theorem test_nop_count : (List.range 256).countP (fun n => (Instr.nop (BitVec.ofNat 8 n)).wf) = 248 := by decide +kernel

/-! ### Instructions, one step each (spec/95_test_vectors.md section 2) -/

/-- P3: no fault at the move. -/
theorem test_ptrDec_below_tape :
    (nextOf (exec .ptrDec (at_ (core 4096 [] []) 0 0))).map readPointers = some (1, -1, 0) := by decide

/-- P6: a finite `PTR_RANGE` of -1, 0, 1. -/
theorem test_ptrDec_leaves_range :
    faultOf (exec .ptrDec (ranged (at_ (core 4096 [] []) 1 (-1)))) =
      some (.resourceLimit, 1, 0, 1) := by decide

/-- P4: no wrap to 0. -/
theorem test_ptrInc_above_tape :
    (nextOf (exec .ptrInc (at_ (core 4096 [] []) 0 4095))).map readPointers = some (1, 4096, 0) := by decide

/-- R131, with the range of P6: at its other end. -/
theorem test_ptrInc_leaves_range :
    faultOf (exec .ptrInc (ranged (at_ (core 4096 [] []) 0 1))) =
      some (.resourceLimit, 0, 0, 0) := by decide

/-- A5: 0 gives 255. -/
theorem test_cellDec_wraps : (nextOf (exec .cellDec (core 4096 [] []))).map (·.mem) = some [(2048, 255)] := by decide

/-- A8: MEM_BOUNDS above a tape of one cell. -/
theorem test_cellDec_off_tape : faultOf (exec .cellDec (at_ (core 1 [] []) 3 1)) = some (.memBounds, 3, 1, 3) := by decide

/-- A3: 255 gives 0, and a blank cell is not listed. -/
theorem test_cellInc_wraps :
    (nextOf (exec .cellInc (withCell (core 4096 [] []) 2048 255))).map (·.mem) = some [] := by decide

/-- A7: MEM_BOUNDS below the tape, tape unchanged. -/
theorem test_cellInc_off_tape : faultOf (exec .cellInc (at_ (core 1 [] []) 5 (-1))) = some (.memBounds, 5, -1, 5) := by decide

/-- L1: `[+]`, the jump goes one past the match. -/
theorem test_loopOpen_jumps :
    (nextOf (exec .loopOpen (core 4096 [0x5B, 0x2B, 0x5D] []))).map (·.codePtr) = some 3 := by decide

/-- L7: `[[]`, the outer bracket has no match. -/
theorem test_loopOpen_unbalanced :
    faultOf (exec .loopOpen (core 4096 [0x5B, 0x5B, 0x5D] [])) = some (.unbalanced, 0, 1, 0) := by decide

/-- 43_loop.md R161's example: `+[-]`, with the cell non-zero the `]` at 3 jumps to 2. -/
theorem test_loopClose_jumps :
    (nextOf (exec .loopClose (withCell (at_ (core 4096 [0x2B, 0x5B, 0x2D, 0x5D] []) 3 2048) 2048 1))).map (·.codePtr) =
      some 2 := by decide

/-- L4: `+]`, the backward scan leaves the program at -1. -/
theorem test_loopClose_unbalanced :
    faultOf (exec .loopClose (withCell (at_ (core 4096 [0x2B, 0x5D] []) 1 2048) 2048 1)) = some (.unbalanced, 1, -1, 1) := by
  decide

/-- I1: the next input byte. -/
theorem test_input_reads :
    (nextOf (exec .input (withCell (core 4096 [] [0x41]) 2048 7))).map (fun t => (t.mem, readPointers t)) =
      some ([(2048, 0x41)], (1, 2048, 1)) := by decide

/-- I2: exhausted input overwrites with 0. -/
theorem test_input_exhausted :
    (nextOf (exec .input { withCell (core 4096 [] [0x41]) 2048 7 with inputPtr := 1 })).map (fun t => (t.mem, readPointers t)) =
      some ([], (1, 2048, 1)) := by decide

/-- I6: a zero byte is appended like any other. -/
theorem test_output_appends :
    (nextOf (exec .output { core 4096 [] [] with output := [0xFF] })).map readOutput = some [0xFF, 0x00] := by decide

/-- I8: a full output of capacity 1. -/
theorem test_output_full :
    faultOf (exec .output { capped (core 4096 [] []) 1 with output := [0] }) =
      some (.resourceLimit, 0, 1, 0) := by decide

/-- N3: NOP never faults, even off the tape. -/
theorem test_nop_off_tape : (nextOf (exec (.nop 0) (at_ (core 1 [] []) 1 (-1)))).map readPointers = some (2, -1, 0) := by
  decide

/-! ### The resolver (section 2.4) -/

theorem test_match_forward :
    [0, 1, 3].map (matchBracket [0x5B, 0x5B, 0x5D, 0x5B, 0x5D, 0x5D] · .forward) = [some 5, some 2, some 4] := by decide

theorem test_match_backward :
    [7, 5].map (matchBracket [0x2B, 0x5B, 0x61, 0x5B, 0x2D, 0x5D, 0x62, 0x5D] · .backward) = [some 1, some 3] := by decide

/-! ### The loop and the host (section 2.7) -/

/-- E1: an empty program halts on its first transition, with an empty result. -/
theorem test_empty_program_halts : (nextOf (step (core 4096 [] []))).map runResult = some (some (.output [])) := by decide

/-- R163: `+[` halts at its end although its bracket is unbalanced; here its last transition. -/
theorem test_halt_at_end :
    (nextOf (step (withCell (at_ (core 4096 [0x2B, 0x5B] []) 2 2048) 2048 1))).map (·.status) = some .halted := by decide

/-- L12: MEM_BOUNDS before UNBALANCED, and the result of the run is the error. -/
theorem test_fault_priority :
    (nextOf (step (at_ (core 1 [0x3C, 0x5B] []) 1 (-1)))).map runResult = some (some (.error .memBounds 1 (-1))) := by decide

/-- E3: ABORT gives STOPPED and no result. -/
theorem test_abort : (abort (core 4096 [0x2B] [])).status = .stopped ∧ runResult (abort (core 4096 [0x2B] [])) = none := by
  decide

/-- E4: START while RUNNING, the old output is gone. -/
theorem test_restart :
    (start [0x2E] [] { core 5 [0x2B] [] with output := [1] }).output = [] ∧
      (start [0x2E] [] { core 5 [0x2B] [] with output := [1] }).memPtr = 2 := by decide

/-- R234: a program beyond `CODE_MAX` is refused. -/
theorem test_start_refused :
    start [0x2E, 0x2E] [] (State.powerUp { Config.standard with codeMax := some 1 }) =
      State.powerUp { Config.standard with codeMax := some 1 } := by decide

/-- R10: no core exists for a configuration without cells. -/
theorem test_no_core : step (State.powerUp { Config.standard with memSize := 0 }) = .refused .noSuchCore := rfl

/-- R32: `status` reads as 3 in FAULT. -/
theorem test_read_control :
    (nextOf (step (at_ (core 1 [0x2E] []) 0 1))).map readControl = some (3, 1, 0, 1) := by decide

theorem test_read_cell : readCell (withCell (core 2 [] []) 1 9) 1 = some 9 ∧ readCell (core 2 [] []) 2 = none := by decide

/-- W10 and R119: the faulting step of `[` is a step that does not commit. -/
theorem test_step_counts : stepCount 1 (core 4096 [0x5B] []) = 1 ∧ committedSteps 1 (core 4096 [0x5B] []) = 0 := by decide

/-- From reset the host's own placing runs the placed instruction. -/
theorem test_fetch_word :
    (nextOf (step (State.reset.withFetchWord 8 0x3C))).map readPointers = some (1, 2047, 0) := by decide

/-! ### Witnesses: the hypotheses of each statement are met, clause by clause at its bounds -/

theorem witness_EveryOtherByteIsNop :
    ∀ b ∈ ([0x00, 0x2A, 0x2F, 0x3D, 0x5C, 0xFF] : List Byte),
      b ≠ 0x3C ∧ b ≠ 0x3E ∧ b ≠ 0x2D ∧ b ≠ 0x2B ∧ b ≠ 0x5B ∧ b ≠ 0x5D ∧ b ≠ 0x2C ∧ b ≠ 0x2E := by decide

theorem witness_NopOnlyAdvances : ([0x2A, 0x3D, 0xBC] : List Byte).all (fun b => (Instr.nop b).wf) = true := by decide

theorem witness_EncodedProgramIsFetched :
    (∀ i ∈ [Instr.loopOpen, .nop 0x61, .loopClose], i.wf = true) ∧
      (core 1 [0x5B, 0x61, 0x5D] []).code = encodeProgram [Instr.loopOpen, .nop 0x61, .loopClose] ∧
      (core 1 [0x5B, 0x61, 0x5D] []).codePtr = (0 : Nat) := by decide

/-- On the tape at its first and last cell, off it just below and just above. -/
theorem witness_tape_bounds :
    (∀ a ∈ ([0, 4095] : List Int), 0 ≤ a ∧ a < (core 4096 [] []).config.memSize) ∧
      ∀ a ∈ ([-1, 4096] : List Int), ¬ (0 ≤ a ∧ a < (core 4096 [] []).config.memSize) := by decide

theorem witness_TapeAccess :
    onTape (core 4096 [] []).config 4095 ∧ ¬ onTape (core 4096 [] []).config 4096 := by decide

theorem witness_CanonicalTapesEqualWhenReadsAgree :
    Memory.wf [(3, 1), (7, 2)] = true ∧ Memory.wf (Memory.write [(3, 1)] 7 2) = true ∧
      ∀ a, Memory.read [(3, 1), (7, 2)] a = Memory.read (Memory.write [(3, 1)] 7 2) a :=
  ⟨by decide, by decide, fun _ => rfl⟩

/-- Unbounded, inside a finite range at its end, and leaving it. -/
theorem witness_PtrDecMovesCursorLeft :
    (core 1 [] []).config.ptrRange = none ∧
      ((ranged (core 1 [] [])).config.ptrRange = some [-1, 0, 1] ∧ (ranged (core 1 [] [])).memPtr - 1 ∈ ([-1, 0, 1] : List Int)) ∧
      (ranged (at_ (core 1 [] []) 0 (-1))).config.ptrRange = some [-1, 0, 1] ∧
      (ranged (at_ (core 1 [] []) 0 (-1))).memPtr - 1 ∉ ([-1, 0, 1] : List Int) := by decide

theorem witness_PtrIncMovesCursorRight :
    (core 1 [] []).config.ptrRange = none ∧
      ((ranged (core 1 [] [])).config.ptrRange = some [-1, 0, 1] ∧ (ranged (core 1 [] [])).memPtr + 1 ∈ ([-1, 0, 1] : List Int)) ∧
      (ranged (at_ (core 1 [] []) 0 1)).config.ptrRange = some [-1, 0, 1] ∧
      (ranged (at_ (core 1 [] []) 0 1)).memPtr + 1 ∉ ([-1, 0, 1] : List Int) := by decide

theorem witness_CellDecWrapsCurrentCell :
    onTape (core 1 [] []).config (core 1 [] []).memPtr ∧ ¬ onTape (core 1 [] []).config (at_ (core 1 [] []) 0 1).memPtr := by
  decide

theorem witness_CellIncWrapsCurrentCell :
    onTape (core 4096 [] []).config (at_ (core 4096 [] []) 0 4095).memPtr ∧
      ¬ onTape (core 4096 [] []).config (at_ (core 4096 [] []) 0 (-1)).memPtr := by decide

/-- Jump, failed scan, no jump, off the tape. -/
theorem witness_LoopOpenSkipsOnZero :
    (onTape (core 1 [0x5B, 0x5D] []).config 0 ∧ (core 1 [0x5B, 0x5D] []).mem.read 0 = 0 ∧
        matchBracket [0x5B, 0x5D] 0 .forward = some 1) ∧
      ((core 1 [0x5B] []).mem.read 0 = 0 ∧ matchBracket [0x5B] 0 .forward = none) ∧
      (withCell (core 1 [0x5B] []) 0 1).mem.read 0 ≠ 0 ∧ ¬ onTape (core 1 [0x5B] []).config (-1) := by decide

theorem witness_LoopCloseRepeatsOnNonZero :
    (onTape (core 1 [0x5B, 0x5D] []).config 0 ∧ (withCell (core 1 [0x5B, 0x5D] []) 0 255).mem.read 0 ≠ 0 ∧
        matchBracket [0x5B, 0x5D] 1 .backward = some 0) ∧
      ((withCell (core 1 [0x5D] []) 0 1).mem.read 0 ≠ 0 ∧ matchBracket [0x5D] 0 .backward = none) ∧
      (core 1 [0x5D] []).mem.read 0 = 0 ∧ ¬ onTape (core 1 [0x5D] []).config 1 := by decide

/-- The first byte, the last byte, the exhausted input, off the tape. -/
theorem witness_InStoresNextInputOrZero :
    0 ≤ (core 1 [] [5, 6]).inputPtr ∧ onTape (core 1 [] [5, 6]).config (core 1 [] [5, 6]).memPtr ∧
      (core 1 [] [5, 6]).inputs[(core 1 [] [5, 6]).inputPtr.toNat]? = some 5 ∧
      ({ core 1 [] [5, 6] with inputPtr := 1 }).inputs[({ core 1 [] [5, 6] with inputPtr := 1 }).inputPtr.toNat]? = some 6 ∧
      (({ core 1 [] [5, 6] with inputPtr := 2 }).inputs.length : Int) ≤ ({ core 1 [] [5, 6] with inputPtr := 2 }).inputPtr ∧
      ¬ onTape (core 1 [] [5, 6]).config (at_ (core 1 [] [5, 6]) 0 1).memPtr := by decide

/-- Room by an unbounded capacity, room for the last byte, a full output, off the tape. -/
theorem witness_OutAppendsCurrentCell :
    onTape (core 1 [] []).config (core 1 [] []).memPtr ∧ (core 1 [] []).config.outCap = none ∧
      ((capped (core 1 [] []) 1).config.outCap = some 1 ∧ (capped (core 1 [] []) 1).output.length < 1) ∧
      ((capped (core 1 [] []) 0).config.outCap = some 0 ∧ 0 ≤ (capped (core 1 [] []) 0).output.length) ∧
      ¬ onTape (core 1 [] []).config (at_ (core 1 [] []) 0 1).memPtr := by decide

/-- A committing step that advances, one that jumps each way. -/
theorem witness_CodePtrAdvancesOrJumps :
    ((nextOf (exec .cellInc (core 1 [] []))).map (·.status) = some .running) ∧
      ((nextOf (exec .loopOpen (core 1 [0x5B, 0x5D] []))).map (·.status) = some .running) ∧
      ((nextOf (exec .loopClose (withCell (at_ (core 1 [0x5B, 0x5D] []) 1 0) 0 1))).map (·.status) = some .running) := by
  decide

theorem witness_BoundedEffect :
    (core 1 [] []).status ≠ .fault ∧ (nextOf (exec .input (core 1 [] [3]))).map (·.status) = some .running := by decide

theorem witness_FaultCommitsNothing :
    (core 1 [] []).status ≠ .fault ∧ (nextOf (exec .input (at_ (core 1 [] [3]) 0 1))).map (·.status) = some .fault := by decide

theorem witness_OnlyTheLoopEndsARun :
    (core 1 [] []).status = .running ∧ (nextOf (step (core 1 [] []))).map (·.status) = some .halted ∧
      (nextOf (step (at_ (core 1 [0x2B] []) 0 1))).map (·.status) = some .fault := by decide

theorem witness_OnlyCurrentCellIsRead :
    Memory.read [(1, 9)] (core 2 [] []).memPtr.toNat = Memory.read [(0, 4), (1, 9)] (core 2 [] []).memPtr.toNat ∧
      (nextOf (exec .cellInc ((core 2 [] []).setMem [(0, 4), (1, 9)]))).isSome := by decide

theorem witness_MemBoundsExactlyOffTheTape :
    (core 1 [] []).cause = .none ∧ 0 ≤ (core 1 [] []).inputPtr ∧
      (nextOf (exec .output (at_ (core 1 [] []) 0 1))).map (·.cause) = some .memBounds := by decide

theorem witness_UnbalancedExactlyOnFailedScan :
    (core 1 [0x5B] []).cause = .none ∧ (nextOf (exec .loopOpen (core 1 [0x5B] []))).map (·.cause) = some .unbalanced := by
  decide

theorem witness_ResourceLimitExactlyAtFiniteCapacity :
    (core 1 [] []).cause = .none ∧
      (nextOf (exec .output (capped (core 1 [] []) 0))).map (·.cause) =
        some .resourceLimit := by decide

theorem witness_OnlyStartLeavesQuiescentStatus :
    ∀ status ∈ [Status.idle, .halted, .fault, .stopped],
      ({ core 1 [0x2B] [] with status := status }).config.wf = true ∧
        ({ core 1 [0x2B] [] with status := status }).status ≠ .running ∧
        ∀ codeIn inputIn, HostOp.run 3 ≠ .start codeIn inputIn := by
  intro status h
  refine ⟨rfl, ?_, (fun _ _ h => nomatch h)⟩
  revert status
  decide

theorem witness_StepRunsDecodedInstruction :
    (core 1 [0x2B, 0x2D] []).config.wf = true ∧ (core 1 [0x2B, 0x2D] []).status = .running ∧
      (at_ (core 1 [0x2B, 0x2D] []) 1 0).code[(1 : Int).toNat]? = some 0x2D := by decide

/-- At the end, and at the first and the last byte of a program. -/
theorem witness_TransitionHaltsStepsOrFaults :
    1 ≤ (core 1 [0x2B, 0x2D] []).config.memSize ∧ (core 1 [0x2B, 0x2D] []).status = .running ∧
      ((core 1 [0x2B, 0x2D] []).code.length : Int) ≤ 2 ∧ (0 : Int) < (core 1 [0x2B, 0x2D] []).code.length ∧
      (1 : Int) < (core 1 [0x2B, 0x2D] []).code.length := by decide

/-- Accepted when unbounded, accepted at the bound, refused one byte above it. -/
theorem witness_StartLoadsAFreshRun :
    startAccepted Config.standard [1, 2, 3] [4] = true ∧
      startAccepted { Config.standard with codeMax := some 2, inputMax := some 1 } [1, 2] [4] = true ∧
      startAccepted { Config.standard with codeMax := some 2, inputMax := some 1 } [1, 2, 3] [4] = false ∧
      startAccepted { Config.standard with codeMax := some 2, inputMax := some 1 } [1, 2] [4, 5] = false := by decide

theorem witness_AbortAndSingleStep : (core 1 [] []).config.wf = true ∧ (core 1 [] []).status = .running := by decide

theorem witness_HostStepsAndRunsAgree :
    (core 1 [0x2B, 0x2E] []).config.wf = true ∧ (∀ op ∈ [HostOp.step, .run 2], op = .step ∨ ∃ k, op = .run k) ∧
      (nextOf (applyHost (.run 1) (core 1 [0x2B, 0x2E] []))).map (·.codePtr) = some 1 := by
  refine ⟨by decide, fun op h => ?_, by decide⟩
  simp only [List.mem_cons, List.not_mem_nil, or_false] at h
  exact h.imp id fun h => ⟨_, h⟩

theorem witness_ProgramAndInputFixedForTheRun :
    (∀ codeIn inputIn, HostOp.step ≠ .start codeIn inputIn) ∧ (nextOf (applyHost .step (core 1 [0x2B] [3]))).isSome :=
  ⟨(fun _ _ h => nomatch h), by decide⟩

theorem witness_OutputIsAppendOnly : (nextOf (runFor 2 (core 1 [0x2E, 0x2E] []))).map (·.output) = some [0, 0] := by decide

theorem witness_InputPointerOnlyAdvances : (nextOf (runFor 2 (core 1 [0x2C, 0x2C] [9]))).map (·.inputPtr) = some 1 := by decide

theorem witness_RunResultByStatus :
    ({ core 1 [] [] with status := .halted }).status = .halted ∧ ({ core 1 [] [] with status := .fault }).status = .fault ∧
      (core 1 [] []).status ≠ .halted ∧ (core 1 [] []).status ≠ .fault := by decide

theorem witness_FirstFaultEndsTheRun :
    (core 1 [0x3C, 0x2B] []).status = .running ∧
      (nextOf (runFor 3 (core 1 [0x3C, 0x2B] []))).map (fun t => (t.status, t.faultPc, t.codePtr)) = some (.fault, 1, 1) := by
  decide

/-- Running at the program's end, and running where the next transition enters FAULT. -/
theorem witness_StepCountExcludesTheHalt :
    ((core 1 [0x2B] []).status = .running ∧
        (nextOf (runFor 1 (core 1 [0x2B] []))).map (fun t => (t.status, t.codePtr)) = some (.running, 1) ∧
        ((core 1 [0x2B] []).code.length : Int) ≤ 1) ∧
      (core 1 [0x3C, 0x2B] []).status = .running ∧
      (nextOf (runFor 1 (core 1 [0x3C, 0x2B] []))).map
          (fun t => (t.status, (nextOf (step t)).map (·.status))) = some (.running, some .fault) := by decide

theorem witness_CursorStaysInPtrRange :
    (ranged (core 1 [0x3C] [])).memPtr ∈ ([-1, 0, 1] : List Int) ∧
      (nextOf (runFor 1 (ranged (core 1 [0x3C] [])))).isSome := by
  decide

theorem witness_BracketCounting : (0x61 : Byte) ≠ 0x5B ∧ (0x61 : Byte) ≠ 0x5D := by decide

theorem witness_ScanEndsWithinProgramLength : ([0x5B, 0x5D] : List Byte).length ≤ 2 := by decide

theorem witness_MatchIsTheOtherBracket :
    matchBracket [0x5B, 0x5D] 0 .forward = some 1 ∧ matchBracket [0x5B, 0x5D] 1 .backward = some 0 := by decide

/-- A scan that returns, at its start and before its last position; one that fails, before it leaves the program, each
way. -/
theorem witness_NestingCounterStaysPositive :
    (matchBracket [0x5B, 0x61, 0x5D] 0 .forward = some 2 ∧ ((0 : Nat) : Int) < (2 - 0) * Dir.forward.step ∧
        ((1 : Nat) : Int) < (2 - 0) * Dir.forward.step) ∧
      (matchBracket [0x5B, 0x5B, 0x61] 0 .forward = none ∧
        ∀ i : Nat, i < 2 → (0 : Int) ≤ 0 + Dir.forward.step * (i + 1) ∧ 0 + Dir.forward.step * (i + 1) < (3 : Nat)) ∧
      matchBracket [0x61, 0x5D] 1 .backward = none ∧
        ∀ i : Nat, i < 1 → (0 : Int) ≤ 1 + Dir.backward.step * (i + 1) ∧ 1 + Dir.backward.step * (i + 1) < (2 : Nat) := by
  decide

theorem witness_MatchIsAnInvolution :
    codeRead [0x5D, 0x5B, 0x5D] 1 = some 0x5B ∧ matchBracket [0x5D, 0x5B, 0x5D] 1 .forward = some 2 ∧
      codeRead [0x5D, 0x5B, 0x5D] 2 = some 0x5D ∧ matchBracket [0x5D, 0x5B, 0x5D] 2 .backward = some 1 := by decide

/-- At either bracket, with the cell zero and with it non-zero. -/
theorem witness_MatchedPairTestSteps :
    (core 1 [0x5B, 0x5D] []).config.wf = true ∧ (core 1 [0x5B, 0x5D] []).status = .running ∧
      onTape (core 1 [0x5B, 0x5D] []).config 0 ∧ codeRead (core 1 [0x5B, 0x5D] []).code 0 = some 0x5B ∧
      matchBracket (core 1 [0x5B, 0x5D] []).code 0 .forward = some 1 ∧ (core 1 [0x5B, 0x5D] []).codePtr = 0 ∧
      (core 1 [0x5B, 0x5D] []).mem.read 0 = 0 ∧ (withCell (core 1 [0x5B, 0x5D] []) 0 1).mem.read 0 ≠ 0 := by decide

/-- In the body's only byte, which leads to the closing bracket. -/
theorem witness_LoopBodyStaysInside :
    codeRead [0x5B, 0x2D, 0x5D] 0 = some 0x5B ∧ matchBracket [0x5B, 0x2D, 0x5D] 0 .forward = some 2 ∧
      (at_ (core 1 [0x5B, 0x2D, 0x5D] []) 1 0).status = .running ∧
      (nextOf (step (at_ (core 1 [0x5B, 0x2D, 0x5D] []) 1 0))).map (fun t => (t.status, t.codePtr)) =
        some (.running, 2) := by decide

/-- `[-]` with 1 in the cell: the body is run once, and then the loop is left. -/
theorem loopRuns_once :
    LoopRuns 0 2 (withCell (core 1 [0x5B, 0x2D, 0x5D] []) 0 1) (at_ (core 1 [0x5B, 0x2D, 0x5D] []) 3 0) :=
  .again 1 (by decide) (by decide) (u := at_ (core 1 [0x5B, 0x2D, 0x5D] []) 2 0) rfl rfl rfl
    (fun m v hm hv => by obtain rfl : m = 0 := by omega
                         cases hv; decide)
    (.leave (by decide) (by decide))

/-- An execution of the loop, and the run of the core that comes to `q + 1` for the first time after 3 transitions. -/
theorem witness_MatchedPairRunsAsWhile :
    LoopRuns 0 2 (withCell (core 1 [0x5B, 0x2D, 0x5D] []) 0 1) (at_ (core 1 [0x5B, 0x2D, 0x5D] []) 3 0) ∧
      (withCell (core 1 [0x5B, 0x2D, 0x5D] []) 0 1).config.wf = true ∧
      (withCell (core 1 [0x5B, 0x2D, 0x5D] []) 0 1).status = .running ∧
      codeRead [0x5B, 0x2D, 0x5D] 0 = some 0x5B ∧ matchBracket [0x5B, 0x2D, 0x5D] 0 .forward = some 2 ∧
      [0, 1, 2, 3].map (fun k => (nextOf (runFor k (withCell (core 1 [0x5B, 0x2D, 0x5D] []) 0 1))).map (·.codePtr)) =
        [some 0, some 1, some 2, some 3] ∧
      nextOf (runFor 3 (withCell (core 1 [0x5B, 0x2D, 0x5D] []) 0 1)) = some (at_ (core 1 [0x5B, 0x2D, 0x5D] []) 3 0) :=
  ⟨loopRuns_once, by decide, by decide, by decide, by decide, by decide, by decide⟩

theorem witness_CursorCountsPointerMoves :
    (core 1 [] []).status ≠ .fault ∧
      (nextOf (execAll [.ptrDec, .ptrDec, .ptrInc] (core 1 [] []))).map (fun t => (t.status, t.memPtr)) =
        some (.running, -1) := by decide

theorem witness_PointerMovesNeverFault :
    (core 1 [] []).config.ptrRange = none ∧
      ∀ i ∈ [Instr.ptrDec, .ptrInc, .nop 0x61], i = .ptrDec ∨ i = .ptrInc ∨ ∃ b, i = .nop b := by
  refine ⟨rfl, fun i h => ?_⟩
  simp only [List.mem_cons, List.not_mem_nil, or_false] at h
  obtain rfl | rfl | rfl := h
  · exact .inl rfl
  · exact .inr (.inl rfl)
  · exact .inr (.inr ⟨_, rfl⟩)

theorem witness_RepeatedCellArithmetic : onTape (core 1 [] []).config (core 1 [] []).memPtr := by decide

/-- With input left, and exhausted. -/
theorem witness_RepeatedInput :
    onTape (core 1 [] [5]).config (core 1 [] [5]).memPtr ∧ 0 ≤ (core 1 [] [5]).inputPtr ∧
      (core 1 [] [5]).inputPtr ≤ (core 1 [] [5]).inputs.length ∧ ((1 : Int) ≤ (core 1 [] [5]).inputs.length) := by decide

theorem witness_InvariantAtPowerUp : Config.wf { Config.standard with memSize := 1 } = true := by decide

/-- A running core in the middle of a run, with a listed cell and a read input byte. -/
theorem coreInv_running : CoreInv { withCell (at_ (core 4 [0x2C, 0x2B, 0x2E] [8, 9]) 1 2) 2 8 with inputPtr := 1 } := by
  constructor
  case faultRecord => exact ⟨rfl, rfl⟩
  all_goals decide

theorem witness_InvariantKeptByStep :
    CoreInv { withCell (at_ (core 4 [0x2C, 0x2B, 0x2E] [8, 9]) 1 2) 2 8 with inputPtr := 1 } ∧
      (nextOf (step { withCell (at_ (core 4 [0x2C, 0x2B, 0x2E] [8, 9]) 1 2) 2 8 with inputPtr := 1 })).map (·.mem) =
        some [(2, 9)] :=
  ⟨coreInv_running, by decide⟩

/-- Each operation answers a next state there. -/
theorem witness_InvariantKeptByHost :
    CoreInv { withCell (at_ (core 4 [0x2C, 0x2B, 0x2E] [8, 9]) 1 2) 2 8 with inputPtr := 1 } ∧
      ∀ op ∈ [HostOp.start [0x2E] [], .run 2, .step, .abort],
        (nextOf (applyHost op { withCell (at_ (core 4 [0x2C, 0x2B, 0x2E] [8, 9]) 1 2) 2 8 with inputPtr := 1 })).isSome :=
  ⟨coreInv_running, by decide⟩

theorem witness_ReachableStatesSatisfyInvariant :
    Config.wf { Config.standard with memSize := 1 } = true ∧
      Reachable { Config.standard with memSize := 1 } (core 1 [0x2B] []) :=
  ⟨by decide, .host (.start [0x2B] []) .powerUp rfl⟩

theorem witness_MachineNeverStops : ∃ s, CoreInv s ∧ s.status = .running := ⟨_, coreInv_running, rfl⟩

theorem witness_UnreadInputHasNoInfluence :
    ([8, 7] : List Byte).length = (core 1 [0x2C] [8, 9]).inputs.length ∧
      ([8, 7] : List Byte).take 1 = (core 1 [0x2C] [8, 9]).inputs.take 1 ∧
      (nextOf (runFor 1 (core 1 [0x2C] [8, 9]))).map (·.inputPtr) = some 1 := by decide

theorem witness_RunsAreIndependent :
    (core 1 [0x2B] []).config = (State.powerUp { Config.standard with memSize := 1 }).config ∧
      startAccepted (core 1 [0x2B] []).config [0x2E] [] = true ∧
      (nextOf (applyHost (.start [0x2E] []) (core 1 [0x2B] []))).isSome ∧
      (nextOf (applyHost (.start [0x2E] []) (State.powerUp { Config.standard with memSize := 1 }))).isSome := by decide

end Sys2Proof.Tests
end

/-! ### Runs as chains of steps -/

namespace Sys2Proof.Machine

open Sys2Proof

/-- The induction over a run, once for every statement about `k` transitions: a relation between a run's first and last
state that counts the transitions holds if it holds of the empty run and a step put before a run keeps it. -/
theorem runFor_induction {R : Nat → State → State → Prop} (hzero : ∀ s, R 0 s s)
    (hstep : ∀ k s u t, step s = .next u → R k u t → R (k + 1) s t) {k : Nat} {s t : State}
    (h : runFor k s = .next t) : R k s t := by
  induction k generalizing s with
  | zero => cases h; exact hzero _
  | succ k ih =>
    obtain ⟨u, hu, hrest⟩ := runFor_succ_next h
    exact hstep k _ u t hu (ih hrest)

end Sys2Proof.Machine

/-! ### The output stream (10_state.md R27) -/

namespace Sys2Proof.Machine

open Sys2Proof

/-- Of all the ways an instruction can go, only OUT's commit appends, and it appends the current cell (R181). -/
theorem effect_output {i : Instr} {s t : State} (h : Effect i s t) :
    t.output = s.output ∨ i = .output ∧ t.output = s.output ++ [s.mem.read s.memPtr.toNat] := by
  cases h with
  | append => exact .inr ⟨rfl, rfl⟩
  | _ => exact .inl rfl

/-- What one transition does to the output, in any status. -/
theorem step_output {s t : State} (h : step s = .next t) :
    t.output = s.output ∨
      s.status = .running ∧ fetch s = some .output ∧ t.output = s.output ++ [s.mem.read s.memPtr.toNat] := by
  obtain ⟨-, ⟨-, rfl⟩ | ⟨-, -, rfl⟩ | ⟨hrun, -, i, hfetch, hexec⟩⟩ := step_next h
  · exact .inl rfl
  · exact .inl (halt_output s)
  · obtain hsame | ⟨rfl, happend⟩ := effect_output (exec_effect hexec)
    · exact .inl hsame
    · exact .inr ⟨hrun, hfetch, happend⟩

/-- The later state's output is the earlier one's with at most `k` bytes appended. -/
def OutputGrowsByAtMost (k : Nat) (s t : State) : Prop := ∃ added, t.output = s.output ++ added ∧ added.length ≤ k

theorem outputGrowsByAtMost_of_eq {k : Nat} {s t : State} (h : t.output = s.output) : OutputGrowsByAtMost k s t :=
  ⟨[], by rw [h, List.append_nil], Nat.zero_le k⟩

/-- Appending one after another adds the counts. -/
theorem OutputGrowsByAtMost.trans {j k : Nat} {s u t : State} (hsu : OutputGrowsByAtMost j s u)
    (hut : OutputGrowsByAtMost k u t) : OutputGrowsByAtMost (k + j) s t := by
  obtain ⟨first, hfirst, hj⟩ := hsu
  obtain ⟨later, hlater, hk⟩ := hut
  refine ⟨first ++ later, by rw [hlater, hfirst, List.append_assoc], ?_⟩
  rw [List.length_append]
  omega

theorem step_outputGrowsByAtMost_one {s t : State} (h : step s = .next t) : OutputGrowsByAtMost 1 s t := by
  obtain hsame | ⟨-, -, happend⟩ := step_output h
  · exact outputGrowsByAtMost_of_eq hsame
  · exact ⟨_, happend, Nat.le_refl 1⟩

theorem runFor_outputGrowsByAtMost {k : Nat} {s t : State} (h : runFor k s = .next t) : OutputGrowsByAtMost k s t :=
  runFor_induction (fun _ => outputGrowsByAtMost_of_eq rfl)
    (fun _ _ _ _ hstep hrest => (step_outputGrowsByAtMost_one hstep).trans hrest) h

/-- Settles O33: one step appends at most the current cell, and only by OUT; a run composes its steps' appended bytes. -/
theorem outputIsAppendOnly : Obligations.OutputIsAppendOnly :=
  ⟨fun _ _ _ => runFor_outputGrowsByAtMost, fun _ _ => step_output⟩

end Sys2Proof.Machine

/-! ### The tape accesses (20_memory.md R52 to R54) -/

namespace Sys2Proof.Machine

open Sys2Proof

/-- Settles O7, by the bounds condition's two sides; what the written tape holds at each index is `Memory.read_write`. -/
theorem tapeAccess : Obligations.TapeAccess := by
  intro s a v
  refine ⟨fun hon => ⟨memRead_onTape hon, s.mem.write a.toNat v, memWrite_onTape v hon, fun j => ?_⟩,
    fun hoff => ⟨memRead_offTape hoff, memWrite_offTape v hoff⟩, memBounds_arg a⟩
  exact Memory.read_write s.mem a.toNat j v

end Sys2Proof.Machine

/-! ### The default row of the decoder (30_encoding.md R85, R86) -/

namespace Sys2Proof.Machine

open Sys2Proof

/-- The decoder's eight comparisons are with the recognized bytes and no others; where all fail the byte is a NOP (R85). -/
theorem decodeByte_of_not_recognized {b : Byte} (hb : b ∉ recognizedBytes) : decodeByte b = .nop b := by
  simp only [recognizedBytes, List.mem_cons, List.not_mem_nil, or_false, not_or] at hb
  simp only [decodeByte, hb, if_false]

/-- Settles O2: a byte unlike each recognized one is outside their list, so it decodes to a NOP, which only advances. -/
theorem everyOtherByteIsNop : Obligations.EveryOtherByteIsNop := by
  refine ⟨fun _ _ => rfl, fun b h3C h3E h2D h2B h5B h5D h2C h2E => ?_⟩
  have hb : b ∉ recognizedBytes := by
    simp only [recognizedBytes, List.mem_cons, List.not_mem_nil, or_false, not_or]
    exact ⟨h3C, h3E, h2D, h2B, h5B, h5D, h2C, h2E⟩
  rw [decodeByte_of_not_recognized hb]
  exact ⟨rfl, execNop_eq b⟩

end Sys2Proof.Machine

/-! ### What an instruction does to `code_ptr`, and its fault (40_step_engine.md R103, R106, R107) -/

namespace Sys2Proof.Machine

open Sys2Proof

/-- The two ends of an instruction (R106): it commits, which never touches `status`, or it enters FAULT from the state
before it. -/
theorem exec_commits_or_takesFault {i : Instr} {s t : State} (h : exec i s = .next t) :
    t.status = s.status ∨ ∃ what, t = s.takeFault what := by
  cases exec_effect h with
  | limitLeft | limitRight | offTape | noClose | noOpen | limitOutput => exact .inr ⟨_, rfl⟩
  | _ => exact .inl rfl

/-- Settles O20: a state outside FAULT that reaches it did not commit; the fault's entry writes no other field. -/
theorem faultCommitsNothing : Obligations.FaultCommitsNothing := by
  intro i s t hs h ht
  obtain hkept | ⟨what, rfl⟩ := exec_commits_or_takesFault h
  · exact absurd (hkept ▸ ht) hs
  · rfl

/-- The jumps that the brackets' tests ask for (R103): `[` on a zero cell forward, `]` on a non-zero cell backward. -/
inductive TakesJump : Instr → State → Dir → Prop where
  | skip {s : State} : s.mem.read s.memPtr.toNat = 0 → TakesJump .loopOpen s .forward
  | back {s : State} : s.mem.read s.memPtr.toNat ≠ 0 → TakesJump .loopClose s .backward

/-- A committing instruction that takes a jump goes one past the matching bracket. -/
theorem effect_codePtr_of_takesJump {i : Instr} {s t : State} {dir : Dir} (hjump : TakesJump i s dir)
    (h : Effect i s t) (ht : t.status ≠ .fault) :
    ∃ q, matchBracket s.code s.codePtr dir = some q ∧ t.codePtr = q + 1 := by
  cases hjump with
  | skip hz =>
    cases h with
    | skipLoop _ _ hq => exact ⟨_, hq, rfl⟩
    | enterLoop _ hnz => exact absurd hz hnz
    | noClose | offTape => exact absurd rfl ht
  | back hnz =>
    cases h with
    | repeatLoop _ _ hq => exact ⟨_, hq, rfl⟩
    | leaveLoop _ hz => exact absurd hz hnz
    | noOpen | offTape => exact absurd rfl ht

/-- A committing instruction that takes no jump advances. -/
theorem effect_codePtr_of_not_takesJump {i : Instr} {s t : State} (hjump : ∀ dir, ¬ TakesJump i s dir)
    (h : Effect i s t) (ht : t.status ≠ .fault) : t.codePtr = s.codePtr + 1 := by
  cases h with
  | skipLoop _ hz => exact absurd (.skip hz) (hjump .forward)
  | repeatLoop _ hnz => exact absurd (.back hnz) (hjump .backward)
  | limitLeft | limitRight | offTape | noClose | noOpen | limitOutput => exact absurd rfl ht
  | _ => rfl

/-- Settles O18: the statement's three clauses are the two ways to take a jump, and taking none. -/
theorem codePtrAdvancesOrJumps : Obligations.CodePtrAdvancesOrJumps := by
  intro i s t _ h ht
  have heffect : Effect i s t := exec_effect h
  refine ⟨fun ⟨hi, hz⟩ => ?_, fun ⟨hi, hnz⟩ => ?_, fun ⟨hopen, hclose⟩ => ?_⟩
  · exact effect_codePtr_of_takesJump (hi ▸ .skip hz) heffect ht
  · exact effect_codePtr_of_takesJump (hi ▸ .back hnz) heffect ht
  · refine effect_codePtr_of_not_takesJump (fun dir hjump => ?_) heffect ht
    cases hjump with
    | skip hz => exact hopen ⟨rfl, hz⟩
    | back hnz => exact hclose ⟨rfl, hnz⟩

end Sys2Proof.Machine

/-! ### The transition of a running core (40_step_engine.md R107, R111) -/

namespace Sys2Proof.Machine

open Sys2Proof

theorem abort_running {s : State} (hs : s.status = .running) : abort s = s.stop := if_pos hs

/-- Settles O21: an instruction commits or faults, so a step that leaves RUNNING is the loop's halt or such a fault. -/
theorem onlyTheLoopEndsARun : Obligations.OnlyTheLoopEndsARun := by
  refine ⟨fun i s t h => ?_, fun s t hs h ht => ?_, fun s hs => ?_⟩
  · obtain hkept | ⟨what, rfl⟩ := exec_commits_or_takesFault h
    · exact .inl hkept
    · exact .inr rfl
  · obtain ⟨-, ⟨hquiet, -⟩ | ⟨-, hend, rfl⟩ | ⟨-, hin, i, -, hexec⟩⟩ := step_next h
    · exact absurd hs hquiet
    · exact .inl ⟨rfl, hend⟩
    · obtain hkept | ⟨what, rfl⟩ := exec_commits_or_takesFault hexec
      · exact absurd (hkept.trans hs) ht
      · exact .inr ⟨rfl, Int.not_le.mp hin⟩
  · rw [abort_running hs]
    rfl

theorem step_atEnd {s : State} (hwf : s.config.wf = true) (hs : s.status = .running) (hend : atEnd s) :
    step s = .next s.halt := by
  rw [step_running hwf hs, loopIteration, if_pos hend]

/-- Inside the program there is a byte to fetch. -/
theorem fetch_inside {s : State} (h0 : 0 ≤ s.codePtr) (h1 : s.codePtr < s.code.length) :
    ∃ b, s.code[s.codePtr.toNat]? = some b ∧ fetch s = some (decodeByte b) := by
  refine ⟨_, List.getElem?_eq_getElem (by omega), ?_⟩
  rw [fetch, codeRead, byteAt_inside h0 h1]
  rfl

/-- Settles O28: the loop's test decides between the halt and the fetched byte's instruction, whose two ends are
`exec_commits_or_takesFault`. -/
theorem transitionHaltsStepsOrFaults : Obligations.TransitionHaltsStepsOrFaults := by
  intro s hsize hs
  have hwf : s.config.wf = true := decide_eq_true hsize
  refine ⟨step_atEnd hwf hs, fun ⟨h0, h1⟩ => ?_⟩
  obtain ⟨b, hb, hfetch⟩ := fetch_inside h0 h1
  have hstep : step s = exec (decodeByte b) s := step_runs hwf hs hfetch
  refine ⟨b, hb, hstep, fun t ht => ?_⟩
  rw [hstep] at ht
  obtain hkept | hfault := exec_commits_or_takesFault ht
  · exact .inl (hkept.trans hs)
  · exact .inr hfault

end Sys2Proof.Machine

/-! ### Splitting a run (40_step_engine.md R118)

`andThen` is the sequencing that `runFor` and `applyHostAll` both make: go on from a next state, keep a fault or a
refusal. -/

namespace Sys2Proof.Machine

open Sys2Proof

theorem effect_config {i : Instr} {s t : State} (h : Effect i s t) : t.config = s.config := by
  cases h <;> rfl

theorem step_config {s t : State} (h : step s = .next t) : t.config = s.config := by
  obtain ⟨-, ⟨-, rfl⟩ | ⟨-, -, rfl⟩ | ⟨-, -, i, -, hexec⟩⟩ := step_next h
  · rfl
  · exact halt_config s
  · exact effect_config (exec_effect hexec)

theorem runFor_config {k : Nat} {s t : State} (h : runFor k s = .next t) : t.config = s.config :=
  runFor_induction (R := fun _ s t => t.config = s.config) (fun _ => rfl)
    (fun _ _ _ _ hstep hrest => hrest.trans (step_config hstep)) h

/-- Continue from a next state with `f`; a fault or a refusal stays. -/
def andThen (r : Host.Outcome State Fault Refusal) (f : State → Host.Outcome State Fault Refusal) :
    Host.Outcome State Fault Refusal :=
  match r with
  | .next t => f t
  | .fault why => .fault why
  | .refused why => .refused why

@[simp] theorem andThen_next (t : State) (f : State → Host.Outcome State Fault Refusal) :
    andThen (.next t) f = f t := rfl

@[simp] theorem andThen_pure (r : Host.Outcome State Fault Refusal) : andThen r .next = r := by
  cases r <;> rfl

theorem andThen_assoc (r : Host.Outcome State Fault Refusal) (f g : State → Host.Outcome State Fault Refusal) :
    andThen (andThen r f) g = andThen r fun t => andThen (f t) g := by
  cases r <;> rfl

/-- Only the continuation at the state that is answered matters. -/
theorem andThen_congr {r : Host.Outcome State Fault Refusal} {f g : State → Host.Outcome State Fault Refusal}
    (h : ∀ t, r = .next t → f t = g t) : andThen r f = andThen r g := by
  cases r with
  | next t => exact h t rfl
  | fault why => rfl
  | refused why => rfl

theorem runFor_succ_eq (k : Nat) (s : State) : runFor (k + 1) s = andThen (step s) (runFor k) := rfl

theorem applyHostAll_cons_eq (op : HostOp) (rest : List HostOp) (s : State) :
    applyHostAll (op :: rest) s = andThen (applyHost op s) (applyHostAll rest) := rfl

@[simp] theorem runFor_one (s : State) : runFor 1 s = step s := andThen_pure (step s)

/-- A run of `j + k` transitions is a run of `j` and then one of `k`. -/
theorem runFor_add (j k : Nat) (s : State) : runFor (j + k) s = andThen (runFor j s) (runFor k) := by
  induction j generalizing s with
  | zero => rw [Nat.zero_add, runFor_zero, andThen_next]
  | succ j ih =>
    calc runFor (j + 1 + k) s
      _ = runFor (j + k + 1) s := by rw [Nat.add_right_comm]
      _ = andThen (step s) (fun u => andThen (runFor j u) (runFor k)) := by rw [runFor_succ_eq, funext ih]
      _ = andThen (runFor (j + 1) s) (runFor k) := by rw [runFor_succ_eq, andThen_assoc]

/-- STEP is a RUN of one transition. -/
theorem applyHost_eq_runFor {op : HostOp} {s : State} (hwf : s.config.wf = true)
    (hop : op = .step ∨ ∃ k, op = .run k) :
    applyHost op s = runFor op.transitions s := by
  obtain rfl | ⟨k, rfl⟩ := hop
  · rw [applyHost_step hwf, step_transitions, runFor_one]
  · rw [applyHost_run k hwf, run_transitions]

/-- STEPs and RUNs one after another are one run of all their transitions; the core that exists goes on existing. -/
theorem applyHostAll_eq_runFor {ops : List HostOp} {s : State} (hwf : s.config.wf = true)
    (hops : ∀ op ∈ ops, op = .step ∨ ∃ k, op = .run k) :
    applyHostAll ops s = runFor (ops.map HostOp.transitions).sum s := by
  induction ops generalizing s with
  | nil => rfl
  | cons op rest ih =>
    obtain ⟨hop, hrest⟩ := List.forall_mem_cons.mp hops
    rw [applyHostAll_cons_eq, applyHost_eq_runFor hwf hop, List.map_cons, List.sum_cons, runFor_add]
    refine andThen_congr fun u hu => ih ?_ hrest
    rwa [runFor_config hu]

/-- Settles O31, by splitting the one RUN where the host's operations divide it. -/
theorem hostStepsAndRunsAgree : Obligations.HostStepsAndRunsAgree := by
  refine ⟨fun ops s hwf hops => ?_, fun m s t hwf h => ?_⟩
  · rw [applyHostAll_eq_runFor hwf hops, applyHost_run _ hwf]
  · rw [applyHost_run m hwf] at h
    have hwft : t.config.wf = true := by rwa [runFor_config h]
    rw [applyHost_run _ hwf, applyHost_step hwft, runFor_add, h, andThen_next, runFor_one]

end Sys2Proof.Machine

/-! ### The pointer instructions (41_pointer.md R130, R131) -/

namespace Sys2Proof.Machine

open Sys2Proof

/-- An instruction whose one test is whether `PTR_RANGE` admits the cursor `p` moves there or faults, and touches nothing
else: the part that R130 and R131 share. -/
theorem cursorMove_commits_or_faults {i : Instr} {s : State} {p : Int}
    (hexec : exec i s =
      .next (if cursorFits s.config p then (s.setCursor p).advance else s.takeFault (.resourceLimit .pointer))) :
    ((∀ values, s.config.ptrRange = some values → p ∈ values) →
      exec i s = .next { s with memPtr := p, codePtr := s.codePtr + 1 }) ∧
    (∀ values, s.config.ptrRange = some values → p ∉ values →
      exec i s = .next { s with status := .fault, cause := .resourceLimit, faultPc := s.codePtr, faultArg := 0 }) := by
  refine ⟨fun hinside => ?_, fun values hrange houtside => ?_⟩
  · have hfits : cursorFits s.config p = true := (cursorFits_iff s.config p).mpr hinside
    rw [hexec, if_pos hfits]
    rfl
  · have hleaves : cursorFits s.config p = false := (cursorFits_false_iff s.config p).mpr ⟨values, hrange, houtside⟩
    rw [hexec, if_neg (Bool.eq_false_iff.mp hleaves)]
    rfl

/-- Settles O9: the handler's equation is a cursor move to `mem_ptr - 1`. -/
theorem ptrDecMovesCursorLeft : Obligations.PtrDecMovesCursorLeft :=
  ⟨rfl, rfl, fun s => cursorMove_commits_or_faults (execPtrDec_eq s)⟩

/-- Settles O10: the handler's equation is a cursor move to `mem_ptr + 1`. -/
theorem ptrIncMovesCursorRight : Obligations.PtrIncMovesCursorRight :=
  ⟨rfl, rfl, fun s => cursorMove_commits_or_faults (execPtrInc_eq s)⟩

end Sys2Proof.Machine

/-! ### The cell arithmetic instructions (42_cell_arith.md R140, R141) -/

namespace Sys2Proof.Machine

open Sys2Proof

/-- The byte subtraction of R140 is the integer one modulo 256, the borrow below 0 included. -/
theorem byte_sub_one_toNat (v : Byte) : ((v - 1).toNat : Int) = ((v.toNat : Int) - 1) % 256 := by
  rw [BitVec.toNat_sub]
  have hv : v.toNat < 256 := v.isLt
  have hone : (1 : Byte).toNat = 1 := rfl
  omega

/-- The byte addition of R141 is the integer one modulo 256. -/
theorem byte_add_one_toNat (v : Byte) : ((v + 1).toNat : Int) = ((v.toNat : Int) + 1) % 256 := by
  rw [BitVec.toNat_add]
  exact Int.natCast_emod _ _

/-- An instruction that stores `v` in the current cell, when there is one, changes that cell alone and moves on; off the
tape it faults and touches nothing else: the part that R140 and R141 share. -/
theorem cellStore_commits_or_faults {i : Instr} {s : State} {v : Byte} {n : Int} (hv : (v.toNat : Int) = n)
    (hexec : exec i s =
      .next (if onTape s.config s.memPtr then (s.setMem (s.mem.write s.memPtr.toNat v)).advance
        else s.takeFault (.memBounds s.memPtr))) :
    (0 ≤ s.memPtr ∧ s.memPtr < s.config.memSize →
      ∃ m, exec i s = .next { s with mem := m, codePtr := s.codePtr + 1 } ∧
        ((m.read s.memPtr.toNat).toNat : Int) = n ∧ ∀ a, a ≠ s.memPtr.toNat → m.read a = s.mem.read a) ∧
    (¬ (0 ≤ s.memPtr ∧ s.memPtr < s.config.memSize) →
      exec i s =
        .next { s with status := .fault, cause := .memBounds, faultPc := s.codePtr, faultArg := s.memPtr }) := by
  refine ⟨fun hon => ⟨s.mem.write s.memPtr.toNat v, ?_, ?_, fun a hother => ?_⟩, fun hoff => ?_⟩
  · rw [hexec]
    exact congrArg Host.Outcome.next (if_pos hon)
  · rw [Memory.read_write_same, hv]
  · exact Memory.read_write_other s.mem v hother
  · rw [hexec]
    exact congrArg Host.Outcome.next (if_neg hoff)

/-- Settles O11: the handler's equation stores `v - 1` in the current cell. -/
theorem cellDecWrapsCurrentCell : Obligations.CellDecWrapsCurrentCell :=
  ⟨rfl, rfl, fun s => cellStore_commits_or_faults (byte_sub_one_toNat _) (execCellDec_eq s)⟩

/-- Settles O12: the handler's equation stores `v + 1` in the current cell. -/
theorem cellIncWrapsCurrentCell : Obligations.CellIncWrapsCurrentCell :=
  ⟨rfl, rfl, fun s => cellStore_commits_or_faults (byte_add_one_toNat _) (execCellInc_eq s)⟩

end Sys2Proof.Machine

/-! ### The bracket resolver's scan (43_loop.md R151 to R156)

A scan from `p0` visits the positions `scanPos p0 dir 0`, `scanPos p0 dir 1`, … in order, and `scanAt` are its registers on
arrival at each. The rounds of `scanFrom` are followed once, here; that the bound on rounds is never met is
`ScanReaches.le_length`. -/

namespace Sys2Proof.Machine

open Sys2Proof

theorem bracketDelta_open (dir : Dir) : bracketDelta 0x5B dir = dir.step := rfl

theorem bracketDelta_close (dir : Dir) : bracketDelta 0x5D dir = -dir.step := rfl

/-- Settles O39: a bracket moves the counter by the direction or against it; only a bracket moves it at all. -/
theorem bracketCounting : Obligations.BracketCounting := by
  refine ⟨⟨bracketDelta_open .forward, bracketDelta_close .forward⟩,
    ⟨bracketDelta_open .backward, bracketDelta_close .backward⟩, fun b dir hopen hclose => ?_⟩
  by_contra hmoves
  obtain rfl | rfl := (bracketDelta_ne_zero_iff b dir).mp hmoves
  · exact hopen rfl
  · exact hclose rfl

/-- A position that holds a program byte: the check `0 <= p < N` (R152). -/
abbrev InProgram (code : List Byte) (p : Int) : Prop := 0 ≤ p ∧ p < code.length

/-- The scan position with index `k`. -/
def scanPos (p0 : Int) (dir : Dir) (k : Nat) : Int := p0 + dir.step * (k + 1)

theorem scanPos_zero (p0 : Int) (dir : Dir) : scanPos p0 dir 0 = p0 + dir.step := by
  simp [scanPos]

theorem scanPos_succ (p0 : Int) (dir : Dir) (k : Nat) : scanPos p0 dir (k + 1) = scanPos p0 dir k + dir.step := by
  simp only [scanPos]
  push_cast
  ring

/-- The positions lie side by side, so a scan that starts and still is in the program has gone less than its length. -/
theorem lt_length_of_scanPos_inProgram {code : List Byte} {p0 : Int} {dir : Dir} {k : Nat}
    (hfirst : InProgram code (scanPos p0 dir 0)) (hk : InProgram code (scanPos p0 dir k)) : k < code.length := by
  cases dir <;> simp only [scanPos, dirStep_forward, dirStep_backward] at hfirst hk <;> omega

/-- The registers of a scan that has come to the position with index `k`. -/
def scanAt (code : List Byte) (p0 : Int) (dir : Dir) (k : Nat) : Scan :=
  { pos := scanPos p0 dir k, depth := depthAfter code p0 dir k, dir := dir }

@[simp] theorem scanAt_pos (code : List Byte) (p0 : Int) (dir : Dir) (k : Nat) :
    (scanAt code p0 dir k).pos = scanPos p0 dir k := rfl

theorem scanAt_zero (code : List Byte) (p0 : Int) (dir : Dir) : scanAt code p0 dir 0 = startScan p0 dir := by
  rw [scanAt, scanPos_zero]
  rfl

section
variable {code : List Byte} {p0 : Int} {dir : Dir} {k : Nat}

theorem scanAt_count {b : Byte} (hb : codeRead code (scanPos p0 dir k) = some b) :
    (scanAt code p0 dir k).count b = scanAt code p0 dir (k + 1) := by
  rw [scanAt, scanAt, depthAfter_succ hb, scanPos_succ]
  rfl

/-- A round at a position in the program tests the counter after that position. -/
theorem scanFrom_scanAt_inProgram (rounds : Nat) (hin : InProgram code (scanPos p0 dir k)) :
    scanFrom code (rounds + 1) (scanAt code p0 dir k) =
      if depthAfter code p0 dir (k + 1) = 0 then some (scanPos p0 dir k)
      else scanFrom code rounds (scanAt code p0 dir (k + 1)) := by
  have hread : codeRead code (scanPos p0 dir k) = some _ := byteAt_inside hin.1 hin.2
  rw [scanFrom_succ, scanAt_pos, hread, depthAfter_succ hread, ← scanAt_count hread]
  rfl

/-- A round at a position outside the program ends the scan. -/
theorem scanFrom_scanAt_outside (rounds : Nat) (hout : ¬ InProgram code (scanPos p0 dir k)) :
    scanFrom code (rounds + 1) (scanAt code p0 dir k) = none := by
  have hread : codeRead code (scanAt code p0 dir k).pos = none := by
    refine byteAt_outside ?_
    rw [scanAt_pos]
    omega
  rw [scanFrom_succ, hread]

end

/-- The scan comes to the position with index `k`: those before it lie in the program, and the counter was 0 after none. -/
def ScanReaches (code : List Byte) (p0 : Int) (dir : Dir) (k : Nat) : Prop :=
  ∀ j < k, InProgram code (scanPos p0 dir j) ∧ depthAfter code p0 dir (j + 1) ≠ 0

section
variable {code : List Byte} {p0 : Int} {dir : Dir} {k : Nat}

theorem scanReaches_zero : ScanReaches code p0 dir 0 := fun _ hj => absurd hj (Nat.not_lt_zero _)

theorem scanReaches_succ_iff : ScanReaches code p0 dir (k + 1) ↔
    ScanReaches code p0 dir k ∧ InProgram code (scanPos p0 dir k) ∧ depthAfter code p0 dir (k + 1) ≠ 0 :=
  Nat.forall_lt_succ_right

/-- A scan is at a position with index at most `N` (R156). -/
theorem ScanReaches.le_length (h : ScanReaches code p0 dir k) : k ≤ code.length := by
  cases k with
  | zero => exact Nat.zero_le _
  | succ m => exact lt_length_of_scanPos_inProgram (h 0 m.succ_pos).1 (h m m.lt_succ_self).1

/-- The rounds before index `k` lead to index `k`. -/
theorem ScanReaches.scanFrom_eq (h : ScanReaches code p0 dir k) (rounds : Nat) :
    scanFrom code (rounds + k) (startScan p0 dir) = scanFrom code rounds (scanAt code p0 dir k) := by
  induction k generalizing rounds with
  | zero => rw [Nat.add_zero, scanAt_zero]
  | succ k ih =>
    obtain ⟨hreach, hin, hdepth⟩ := scanReaches_succ_iff.mp h
    calc scanFrom code (rounds + (k + 1)) (startScan p0 dir)
      _ = scanFrom code (rounds + 1 + k) (startScan p0 dir) := by rw [Nat.add_comm k 1, Nat.add_assoc]
      _ = scanFrom code (rounds + 1) (scanAt code p0 dir k) := ih hreach (rounds + 1)
      _ = scanFrom code rounds (scanAt code p0 dir (k + 1)) := by
        rw [scanFrom_scanAt_inProgram rounds hin, if_neg hdepth]

/-- The resolver's answer is decided at any position that the scan comes to. -/
theorem ScanReaches.matchBracket_eq (h : ScanReaches code p0 dir k) :
    matchBracket code p0 dir = scanFrom code (code.length - k + 1) (scanAt code p0 dir k) := by
  have hrounds : code.length + 1 = code.length - k + 1 + k := by
    have hle := h.le_length
    omega
  rw [matchBracket, hrounds, h.scanFrom_eq]

theorem ScanReaches.matchBracket_found (h : ScanReaches code p0 dir k) (hin : InProgram code (scanPos p0 dir k))
    (hdepth : depthAfter code p0 dir (k + 1) = 0) : matchBracket code p0 dir = some (scanPos p0 dir k) := by
  rw [h.matchBracket_eq, scanFrom_scanAt_inProgram _ hin, if_pos hdepth]

theorem ScanReaches.matchBracket_missing (h : ScanReaches code p0 dir k)
    (hout : ¬ InProgram code (scanPos p0 dir k)) : matchBracket code p0 dir = none := by
  rw [h.matchBracket_eq, scanFrom_scanAt_outside _ hout]

/-- The counter starts at 1, so up to a position that the scan comes to it was never 0. -/
theorem ScanReaches.depthAfter_ne_zero (h : ScanReaches code p0 dir k) {j : Nat} (hj : j ≤ k) :
    depthAfter code p0 dir j ≠ 0 := by
  cases j with
  | zero => exact Int.one_ne_zero
  | succ i => exact (h i hj).2

end

/-- Every scan ends: it leaves the program or brings the counter to 0. Otherwise it would come to index `N + 1`. -/
theorem exists_scan_end (code : List Byte) (p0 : Int) (dir : Dir) :
    ∃ k, ScanReaches code p0 dir k ∧
      (¬ InProgram code (scanPos p0 dir k) ∨
        InProgram code (scanPos p0 dir k) ∧ depthAfter code p0 dir (k + 1) = 0) := by
  by_contra hnone
  have hall : ∀ k, ScanReaches code p0 dir k := by
    intro k
    induction k with
    | zero => exact scanReaches_zero
    | succ k ih =>
      have hin : InProgram code (scanPos p0 dir k) := not_not.mp fun hout => hnone ⟨k, ih, .inl hout⟩
      exact scanReaches_succ_iff.mpr ⟨ih, hin, fun hzero => hnone ⟨k, ih, .inr ⟨hin, hzero⟩⟩⟩
  exact Nat.not_succ_le_self _ (hall (code.length + 1)).le_length

/-- Settles O40: a match is a scan's end in the program (forward), and such an end decides the resolver's answer
(backward). -/
theorem matchReturnsFirstZero : Obligations.MatchReturnsFirstZero := by
  intro code p0 dir q
  constructor
  · intro hmatch
    obtain ⟨k, hreach, hout | ⟨hin, hzero⟩⟩ := exists_scan_end code p0 dir
    · rw [hreach.matchBracket_missing hout] at hmatch
      cases hmatch
    · rw [hreach.matchBracket_found hin hzero] at hmatch
      cases hmatch
      refine ⟨k, rfl, fun j hj => ?_, hzero, fun j => hreach.depthAfter_ne_zero⟩
      obtain hlt | rfl := Nat.lt_or_eq_of_le hj
      · exact (hreach j hlt).1
      · exact hin
  · rintro ⟨k, rfl, hin, hzero, hnonzero⟩
    have hreach : ScanReaches code p0 dir k := fun j hj => ⟨hin j hj.le, hnonzero (j + 1) hj⟩
    exact hreach.matchBracket_found (hin k le_rfl) hzero

end Sys2Proof.Machine

/-! ### The loop instructions (43_loop.md R160, R161) -/

namespace Sys2Proof.Machine

open Sys2Proof

/-- Where a jump that is asked for leads: one past the match, or into the fault of a missing one. -/
def bracketJump (s : State) (dir : Dir) : State :=
  match matchBracket s.code s.codePtr dir with
  | some q => s.jumpPast q
  | none => s.takeFault (.unbalanced dir)

theorem bracketJump_found {s : State} {dir : Dir} {q : Int} (h : matchBracket s.code s.codePtr dir = some q) :
    bracketJump s dir = s.jumpPast q := by
  rw [bracketJump, h]

theorem bracketJump_missing {s : State} {dir : Dir} (h : matchBracket s.code s.codePtr dir = none) :
    bracketJump s dir = s.takeFault (.unbalanced dir) := by
  rw [bracketJump, h]

theorem execLoopOpen_eq_bracketJump (s : State) :
    exec .loopOpen s =
      .next (if onTape s.config s.memPtr then
          if s.mem.read s.memPtr.toNat = 0 then bracketJump s .forward else s.advance
        else s.takeFault (.memBounds s.memPtr)) :=
  execLoopOpen_eq s

theorem execLoopClose_eq_bracketJump (s : State) :
    exec .loopClose s =
      .next (if onTape s.config s.memPtr then
          if s.mem.read s.memPtr.toNat ≠ 0 then bracketJump s .backward else s.advance
        else s.takeFault (.memBounds s.memPtr)) := by
  rw [ite_not]
  exact execLoopClose_eq s

/-- An instruction that on the tape makes its jump or advances, by one test, and off the tape faults before the test: the
part that R160 and R161 share. -/
theorem bracket_jumps_or_advances_or_faults {i : Instr} {s : State} {dir : Dir} {jumps stays : Prop} [Decidable jumps]
    (htest : stays → ¬ jumps)
    (hexec : exec i s =
      .next (if onTape s.config s.memPtr then if jumps then bracketJump s dir else s.advance
        else s.takeFault (.memBounds s.memPtr))) :
    (0 ≤ s.memPtr ∧ s.memPtr < s.config.memSize →
      (∀ q, jumps → matchBracket s.code s.codePtr dir = some q → exec i s = .next { s with codePtr := q + 1 }) ∧
      (jumps → matchBracket s.code s.codePtr dir = none →
        exec i s =
          .next { s with status := .fault, cause := .unbalanced, faultPc := s.codePtr, faultArg := dir.step }) ∧
      (stays → exec i s = .next { s with codePtr := s.codePtr + 1 })) ∧
    (¬ (0 ≤ s.memPtr ∧ s.memPtr < s.config.memSize) →
      exec i s =
        .next { s with status := .fault, cause := .memBounds, faultPc := s.codePtr, faultArg := s.memPtr }) := by
  refine ⟨fun hon => ?_, fun hoff => ?_⟩
  · rw [if_pos hon] at hexec
    refine ⟨fun q hjump hq => ?_, fun hjump hnone => ?_, fun hstay => ?_⟩
    · rw [hexec, if_pos hjump, bracketJump_found hq]
      rfl
    · rw [hexec, if_pos hjump, bracketJump_missing hnone]
      rfl
    · rw [hexec, if_neg (htest hstay)]
      rfl
  · rw [hexec, if_neg hoff]
    rfl

/-- Settles O13: the handler's equation jumps forward on a zero cell. -/
theorem loopOpenSkipsOnZero : Obligations.LoopOpenSkipsOnZero :=
  ⟨rfl, rfl, fun s => bracket_jumps_or_advances_or_faults id (execLoopOpen_eq_bracketJump s)⟩

/-- Settles O14: the handler's equation jumps backward on a non-zero cell. -/
theorem loopCloseRepeatsOnNonZero : Obligations.LoopCloseRepeatsOnNonZero :=
  ⟨rfl, rfl, fun s => bracket_jumps_or_advances_or_faults not_not_intro (execLoopClose_eq_bracketJump s)⟩

end Sys2Proof.Machine

/-! ### The input and output instructions (44_io.md R180, R181) -/

namespace Sys2Proof.Machine

open Sys2Proof

theorem byteAt_nonneg (bytes : List Byte) {p : Int} (h0 : 0 ≤ p) : byteAt bytes p = bytes[p.toNat]? := if_pos h0

/-- IN off the tape: both of its branches store, so both fault. -/
theorem execIn_offTape {s : State} (h0 : 0 ≤ s.inputPtr) (hoff : ¬ onTape s.config s.memPtr) :
    exec .input s = .next (s.takeFault (.memBounds s.memPtr)) := by
  obtain hbelow | ⟨v, hv⟩ | hexhausted := input_cases s
  · exact absurd h0 (Int.not_le.mpr hbelow)
  · rw [execIn_read hv, if_neg hoff]
  · rw [execIn_exhausted hexhausted, if_neg hoff]

/-- Settles O15: by the handler's equation with a byte left, the one for exhausted input, and the fault of both. -/
theorem inStoresNextInputOrZero : Obligations.InStoresNextInputOrZero := by
  refine ⟨rfl, rfl, fun s h0 => ⟨fun hon => ⟨fun v hinput => ?_, fun hexhausted => ?_⟩, execIn_offTape h0⟩⟩
  · have hv : byteAt s.inputs s.inputPtr = some v := (byteAt_nonneg s.inputs h0).trans hinput
    refine ⟨s.mem.write s.memPtr.toNat v, ?_, s.mem.read_write_same _ v, fun _ => s.mem.read_write_other v⟩
    rw [execIn_read hv, if_pos hon]
    rfl
  · refine ⟨s.mem.write s.memPtr.toNat 0, ?_, s.mem.read_write_same _ 0, fun _ => s.mem.read_write_other 0⟩
    rw [execIn_exhausted hexhausted, if_pos hon]
    rfl

theorem outputFull_false_iff (s : State) :
    outputFull s = false ↔ ∀ cap, s.config.outCap = some cap → s.output.length < cap := by
  rw [Bool.eq_false_iff, ne_eq, outputFull_iff]
  push Not
  rfl

/-- Settles O16: the handler's equation tests the tape first and the capacity after it. -/
theorem outAppendsCurrentCell : Obligations.OutAppendsCurrentCell := by
  refine ⟨rfl, rfl, fun s => ⟨fun hon => ⟨fun hroom => ?_, fun cap hcap hreached => ?_⟩, fun hoff => ?_⟩⟩
  · have hopen : outputFull s = false := (outputFull_false_iff s).mpr hroom
    rw [execOut_eq, if_pos hon, if_neg (Bool.eq_false_iff.mp hopen)]
    rfl
  · have hfull : outputFull s = true := (outputFull_iff s).mpr ⟨cap, hcap, hreached⟩
    rw [execOut_eq, if_pos hon, if_pos hfull]
    rfl
  · rw [execOut_eq, if_neg hoff]
    rfl

end Sys2Proof.Machine

/-! ### The NOP row (45_default.md R190) -/

namespace Sys2Proof.Machine

open Sys2Proof

/-- Settles O17: a byte encodes to itself by the encoder's NOP row and decodes by O2's clause for the 248 other bytes;
the handler's equation then holds for any byte a NOP carries, well-formed or not. -/
theorem nopOnlyAdvances : Obligations.NopOnlyAdvances := by
  refine ⟨fun b h3C h3E h2D h2B h5B h5D h2C h2E => ⟨rfl, ?_⟩, execNop_eq⟩
  obtain ⟨-, hother⟩ := everyOtherByteIsNop
  obtain ⟨hdecode, -⟩ := hother b h3C h3E h2D h2B h5B h5D h2C h2E
  exact hdecode

end Sys2Proof.Machine

/-! ### Program, input and configuration of a run (70_reset_and_hazards.md R243) -/

namespace Sys2Proof.Machine

open Sys2Proof

/-- The later state has the earlier one's program, input and configuration. -/
def SameLoad (s t : State) : Prop := t.code = s.code ∧ t.inputs = s.inputs ∧ t.config = s.config

theorem SameLoad.refl (s : State) : SameLoad s s := ⟨rfl, rfl, rfl⟩

theorem SameLoad.trans {s u t : State} (hsu : SameLoad s u) (hut : SameLoad u t) : SameLoad s t := by
  obtain ⟨hcode, hinputs, hconfig⟩ := hsu
  obtain ⟨hcode', hinputs', hconfig'⟩ := hut
  exact ⟨hcode'.trans hcode, hinputs'.trans hinputs, hconfig'.trans hconfig⟩

theorem halt_sameLoad (s : State) : SameLoad s s.halt := ⟨halt_code s, halt_inputs s, halt_config s⟩

theorem abort_sameLoad (s : State) : SameLoad s (abort s) := by
  by_cases hs : s.status = .running
  · rw [abort_running hs]
    exact ⟨stop_code s, stop_inputs s, stop_config s⟩
  · rw [abort, if_neg hs]
    exact .refl s

/-- None of the ways an instruction can go, its faults included, writes the program or the input. -/
theorem effect_sameLoad {i : Instr} {s t : State} (h : Effect i s t) : SameLoad s t := by
  refine ⟨?_, ?_, effect_config h⟩ <;> cases h <;> rfl

theorem step_sameLoad {s t : State} (h : step s = .next t) : SameLoad s t := by
  obtain ⟨-, ⟨-, rfl⟩ | ⟨-, -, rfl⟩ | ⟨-, -, i, -, hexec⟩⟩ := step_next h
  · exact .refl t
  · exact halt_sameLoad s
  · exact effect_sameLoad (exec_effect hexec)

theorem runFor_sameLoad {k : Nat} {s t : State} (h : runFor k s = .next t) : SameLoad s t :=
  runFor_induction (R := fun _ => SameLoad) .refl (fun _ _ _ _ hstep hrest => (step_sameLoad hstep).trans hrest) h

/-- Settles O32: no step writes what START loaded, so no RUN does, and ABORT sets the status alone. -/
theorem programAndInputFixedForTheRun : Obligations.ProgramAndInputFixedForTheRun := by
  intro op s t hop h
  have hwf := applyHost_exists h
  cases op with
  | start codeIn inputIn => exact absurd rfl (hop codeIn inputIn)
  | run k =>
    rw [applyHost_run k hwf] at h
    exact runFor_sameLoad h
  | step =>
    rw [applyHost_step hwf] at h
    exact step_sameLoad h
  | abort =>
    rw [applyHost_abort hwf] at h
    cases h
    exact abort_sameLoad s

end Sys2Proof.Machine

/-! ### Decoder and encoder agree (30_encoding.md) -/

namespace Sys2Proof.Machine

open Sys2Proof

/-- Settles O1: the decoder's comparisons at the table's nine words. -/
theorem recognizedBytesDecode : Obligations.RecognizedBytesDecode := by
  unfold Obligations.RecognizedBytesDecode
  decide

theorem decodeProgram_eq_map (bytes : List Byte) : decodeProgram bytes = bytes.map decodeByte := by
  induction bytes with
  | nil => rfl
  | cons b rest ih => rw [decodeProgram, ih, List.map_cons]

/-- A well-formed instruction is read back from its byte; a NOP because its byte is none of the recognized ones. -/
theorem decodeByte_encodeByte {i : Instr} (hi : i.wf = true) : decodeByte (encodeByte i) = i := by
  cases i with
  | nop b =>
    have hb : b ∉ recognizedBytes := by simpa [Instr.wf] using hi
    exact decodeByte_of_not_recognized hb
  | _ => rfl

/-- The eight recognized bytes and the default row: encoding gives back the byte that was decoded. -/
theorem encodeByte_decodeByte (b : Byte) : encodeByte (decodeByte b) = b := by
  by_cases hb : b ∈ recognizedBytes
  · have hall : ∀ b ∈ recognizedBytes, encodeByte (decodeByte b) = b := by decide
    exact hall b hb
  · rw [decodeByte_of_not_recognized hb]
    rfl

/-- The decoder answers well-formed instructions only. -/
theorem decodeByte_wf (b : Byte) : (decodeByte b).wf = true := by
  by_cases hb : b ∈ recognizedBytes
  · have hall : ∀ b ∈ recognizedBytes, (decodeByte b).wf = true := by decide
    exact hall b hb
  · rw [decodeByte_of_not_recognized hb]
    simpa [Instr.wf] using hb

theorem decodeProgram_encodeProgram {program : List Instr} (hwf : ∀ i ∈ program, i.wf = true) :
    decodeProgram (encodeProgram program) = program := by
  induction program with
  | nil => rfl
  | cons i rest ih =>
    obtain ⟨hi, hrest⟩ := List.forall_mem_cons.mp hwf
    calc decodeProgram (encodeProgram (i :: rest))
      _ = decodeByte (encodeByte i) :: decodeProgram (encodeProgram rest) := rfl
      _ = i :: rest := by rw [decodeByte_encodeByte hi, ih hrest]

theorem encodeProgram_decodeProgram (bytes : List Byte) : encodeProgram (decodeProgram bytes) = bytes := by
  induction bytes with
  | nil => rfl
  | cons b rest ih =>
    calc encodeProgram (decodeProgram (b :: rest))
      _ = encodeByte (decodeByte b) :: encodeProgram (decodeProgram rest) := rfl
      _ = b :: rest := by rw [encodeByte_decodeByte, ih]

/-- The fetch is the indexing of the decoded program. -/
theorem fetch_eq_getElem_decodeProgram {s : State} (h0 : 0 ≤ s.codePtr) :
    fetch s = (decodeProgram s.code)[s.codePtr.toNat]? := by
  rw [fetch, codeRead, byteAt_nonneg s.code h0, decodeProgram_eq_map, List.getElem?_map]

/-- Settles O3: the round trip by induction on the program; the fetch then indexes the program read back. -/
theorem encodedProgramIsFetched : Obligations.EncodedProgramIsFetched := by
  intro program hwf
  refine ⟨decodeProgram_encodeProgram hwf, fun s p hcode hp => ?_⟩
  have h0 : 0 ≤ s.codePtr := by omega
  rw [fetch_eq_getElem_decodeProgram h0, hcode, decodeProgram_encodeProgram hwf, hp, Int.toNat_natCast]

/-- Settles O4: byte by byte, with the decoder's own well-formedness. -/
theorem everyByteSequenceIsAProgram : Obligations.EveryByteSequenceIsAProgram := by
  refine fun bytes => ⟨encodeProgram_decodeProgram bytes, fun i hi => ?_⟩
  rw [decodeProgram_eq_map] at hi
  obtain ⟨b, -, rfl⟩ := List.mem_map.mp hi
  exact decodeByte_wf b

end Sys2Proof.Machine

/-! ### What the ways of an instruction write (40_step_engine.md section 1)

One lemma per part of the state, each a case split on `Effect`; the statements about all instructions cite these. -/

namespace Sys2Proof.Machine

open Sys2Proof

/-- The bracket that searches its match in a direction. -/
def bracketInstr : Dir → Instr
  | .forward => .loopOpen
  | .backward => .loopClose

theorem withinBound_iff (bound : Option Nat) (n : Nat) :
    withinBound bound n = true ↔ ∀ most, bound = some most → n ≤ most := by
  cases bound <;> simp [withinBound]

theorem withinBound_zero (bound : Option Nat) : withinBound bound 0 = true :=
  (withinBound_iff bound 0).mpr fun most _ => Nat.zero_le most

section
variable {i : Instr} {s t : State}

/-- The cursor is moved by a pointer instruction only, to a place that `PTR_RANGE` holds. -/
theorem effect_memPtr (h : Effect i s t) :
    t.memPtr = s.memPtr ∨
      (i = .ptrDec ∧ t.memPtr = s.memPtr - 1 ∨ i = .ptrInc ∧ t.memPtr = s.memPtr + 1) ∧
        cursorFits s.config t.memPtr = true := by
  cases h with
  | moveLeft hfits => exact .inr ⟨.inl ⟨rfl, rfl⟩, hfits⟩
  | moveRight hfits => exact .inr ⟨.inr ⟨rfl, rfl⟩, hfits⟩
  | _ => exact .inl rfl

/-- The tape is written by cell arithmetic and IN only, and only at the cursor, which is on it. -/
theorem effect_mem (h : Effect i s t) :
    t.mem = s.mem ∨
      (i = .cellDec ∨ i = .cellInc ∨ i = .input) ∧ onTape s.config s.memPtr ∧
        ∃ v, t.mem = s.mem.write s.memPtr.toNat v := by
  cases h with
  | decrement hon => exact .inr ⟨.inl rfl, hon, _, rfl⟩
  | increment hon => exact .inr ⟨.inr (.inl rfl), hon, _, rfl⟩
  | readInput hon => exact .inr ⟨.inr (.inr rfl), hon, _, rfl⟩
  | exhausted hon => exact .inr ⟨.inr (.inr rfl), hon, 0, rfl⟩
  | _ => exact .inl rfl

/-- The input pointer is advanced by IN only, past a byte of the input. -/
theorem effect_inputPtr (h : Effect i s t) :
    t.inputPtr = s.inputPtr ∨ i = .input ∧ s.inputPtr < s.inputs.length ∧ t.inputPtr = s.inputPtr + 1 := by
  cases h with
  | readInput _ hv => exact .inr ⟨rfl, (byteAt_eq_some hv).2, rfl⟩
  | _ => exact .inl rfl

/-- `code_ptr` stays (a fault), advances, or goes one past a bracket's match. -/
theorem effect_codePtr (h : Effect i s t) :
    t.codePtr = s.codePtr ∨ t.codePtr = s.codePtr + 1 ∨
      ∃ dir q, i = bracketInstr dir ∧ matchBracket s.code s.codePtr dir = some q ∧ t.codePtr = q + 1 := by
  cases h with
  | skipLoop _ _ hq => exact .inr (.inr ⟨.forward, _, rfl, hq, rfl⟩)
  | repeatLoop _ _ hq => exact .inr (.inr ⟨.backward, _, rfl, hq, rfl⟩)
  | limitLeft | limitRight | offTape | noClose | noOpen | limitOutput => exact .inl rfl
  | _ => exact .inr (.inl rfl)

/-- An append finds room, so the output stays within `OUT_CAP`. -/
theorem effect_outputWithin (h : Effect i s t) (hs : withinBound s.config.outCap s.output.length = true) :
    withinBound t.config.outCap t.output.length = true := by
  cases h with
  | append _ hroom =>
    refine (withinBound_iff ..).mpr fun cap hcap => ?_
    have hlt : s.output.length < cap := (outputFull_false_iff s).mp hroom cap hcap
    simpa using hlt
  | _ => exact hs

theorem effect_mem_wf (h : Effect i s t) (hs : s.mem.wf = true) : t.mem.wf = true := by
  obtain hsame | ⟨-, -, v, hwrite⟩ := effect_mem h
  · rwa [hsame]
  · rw [hwrite]
    exact Memory.wf_write s.mem _ v hs

theorem effect_mem_within (h : Effect i s t) (hs : s.mem.within s.config.memSize = true) :
    t.mem.within t.config.memSize = true := by
  rw [effect_config h]
  obtain hsame | ⟨-, ⟨h0, h1⟩, v, hwrite⟩ := effect_mem h
  · rwa [hsame]
  · rw [hwrite]
    exact Memory.within_write s.mem v (by omega) hs

/-- The status and the fault record are the same. -/
def SameRecord (s t : State) : Prop :=
  t.status = s.status ∧ t.cause = s.cause ∧ t.faultPc = s.faultPc ∧ t.faultArg = s.faultArg

/-- An instruction commits and leaves status and fault record alone, or it enters FAULT with a record that is true. -/
theorem effect_record (h : Effect i s t) (hs : withinBound s.config.outCap s.output.length = true) :
    SameRecord s t ∨ ∃ what, t = s.takeFault what ∧ faultRecordTrue t := by
  cases h with
  | limitLeft hleaves | limitRight hleaves =>
    obtain ⟨values, hrange, -⟩ := (cursorFits_false_iff _ _).mp hleaves
    exact .inr ⟨_, rfl, rfl, .inl ⟨rfl, by simp [hrange]⟩⟩
  | offTape _ hoff => exact .inr ⟨_, rfl, rfl, rfl, hoff⟩
  | noClose => exact .inr ⟨_, rfl, rfl, .inl rfl⟩
  | noOpen => exact .inr ⟨_, rfl, rfl, .inr rfl⟩
  | limitOutput _ hfull =>
    obtain ⟨cap, hcap, hreached⟩ := (outputFull_iff s).mp hfull
    have hle : s.output.length ≤ cap := (withinBound_iff ..).mp hs cap hcap
    refine .inr ⟨_, rfl, rfl, .inr ⟨rfl, ?_⟩⟩
    rw [takeFault_config, takeFault_output, hcap, Nat.le_antisymm hreached hle]
  | _ => exact .inl ⟨rfl, rfl, rfl, rfl⟩

/-- A committing instruction, outside FAULT, leaves status and fault record alone. -/
theorem effect_sameRecord (h : Effect i s t) (ht : t.status ≠ .fault) : SameRecord s t := by
  cases h with
  | limitLeft | limitRight | offTape | noClose | noOpen | limitOutput => exact absurd rfl ht
  | _ => exact ⟨rfl, rfl, rfl, rfl⟩

end

/-- Settles O19: one field after another, each by the lemma that says what may write it. -/
theorem boundedEffect : Obligations.BoundedEffect := by
  intro i s t _ hexec ht
  have h : Effect i s t := exec_effect hexec
  obtain ⟨hcode, hinputs, hconfig⟩ := effect_sameLoad h
  refine ⟨⟨hconfig, hcode, hinputs⟩, effect_sameRecord h ht, fun hdec hinc => ?_, fun hdec hinc hin => ?_,
    fun a ha => ?_, fun hin => ?_, ?_, fun hout => ?_, ?_⟩
  · obtain hsame | ⟨⟨hi, -⟩ | ⟨hi, -⟩, -⟩ := effect_memPtr h
    · exact hsame
    · exact absurd hi hdec
    · exact absurd hi hinc
  · obtain hsame | ⟨hi | hi | hi, -⟩ := effect_mem h
    · exact hsame
    · exact absurd hi hdec
    · exact absurd hi hinc
    · exact absurd hi hin
  · obtain hsame | ⟨-, ⟨h0, -⟩, v, hwrite⟩ := effect_mem h
    · rw [hsame]
    · rw [hwrite, Memory.read_write_other s.mem v (by omega)]
  · obtain hsame | ⟨hi, -⟩ := effect_inputPtr h
    · exact hsame
    · exact absurd hi hin
  · obtain hsame | ⟨-, -, hnext⟩ := effect_inputPtr h
    · exact .inl hsame
    · exact .inr hnext
  · obtain hsame | ⟨hi, -⟩ := effect_output h
    · exact hsame
    · exact absurd hi hout
  · obtain hsame | ⟨-, happend⟩ := effect_output h
    · exact .inl hsame
    · exact .inr happend

end Sys2Proof.Machine

/-! ### The invariant is kept (10_state.md, 60_exceptions.md, 70_reset_and_hazards.md) -/

namespace Sys2Proof.Machine

open Sys2Proof

/-- A fetched instruction stands in the program. -/
theorem inProgram_of_fetch {s : State} {i : Instr} (h : fetch s = some i) : InProgram s.code s.codePtr := by
  obtain ⟨b, hb, -⟩ := Option.map_eq_some_iff.mp h
  exact byteAt_eq_some hb

theorem CoreInv.cause_none {s : State} (hinv : CoreInv s) (hs : s.status ≠ .fault) : s.cause = .none :=
  not_not.mp fun hcause => hs (hinv.causeIffFault.mp hcause)

theorem faultRecordTrue_of_cause_none {s : State} (hs : s.cause = .none) :
    faultRecordTrue s ↔ s.faultPc = 0 ∧ s.faultArg = 0 := by
  simp only [faultRecordTrue, hs]

/-- A running core that halts at the program's end, or is stopped, keeps the invariant: only the status changes. -/
theorem CoreInv.endRun {s : State} {status : Status} (hinv : CoreInv s) (hs : s.status = .running)
    (hend : status = .halted ∧ atEnd s ∨ status = .stopped) : CoreInv { s with status := status } where
  coreExists := hinv.coreExists
  tapeCanonical := hinv.tapeCanonical
  tapeWithin := hinv.tapeWithin
  codePtrRange := hinv.codePtrRange
  inputPtrRange := hinv.inputPtrRange
  loadedWithin := hinv.loadedWithin
  outputWithin := hinv.outputWithin
  causeIffFault := by
    have hcause : s.cause = .none := hinv.cause_none (by simp [hs])
    obtain ⟨rfl, -⟩ | rfl := hend <;> simp [hcause]
  faultRecord := hinv.faultRecord
  haltedAtEnd hhalted := by
    obtain ⟨-, hend⟩ | rfl := hend
    · exact Int.le_antisymm hinv.codePtrRange.2 hend
    · cases hhalted
  faultInProgram hfault := by obtain ⟨rfl, -⟩ | rfl := hend <;> cases hfault
  idleAsPoweredUp hidle := by obtain ⟨rfl, -⟩ | rfl := hend <;> cases hidle

/-- What the invariant says of status and fault record. -/
structure RecordInv (s : State) : Prop where
  causeIffFault : s.cause ≠ .none ↔ s.status = .fault
  faultRecord : faultRecordTrue s
  haltedAtEnd : s.status = .halted → s.codePtr = s.code.length
  faultInProgram : s.status = .fault → s.codePtr < s.code.length
  idleAsPoweredUp : s.status = .idle → s = State.powerUp s.config

/-- A running core with an empty fault record. -/
theorem recordInv_of_running {s : State} (hs : s.status = .running) (hcause : s.cause = .none)
    (hrecord : s.faultPc = 0 ∧ s.faultArg = 0) : RecordInv s where
  causeIffFault := by simp [hs, hcause]
  faultRecord := (faultRecordTrue_of_cause_none hcause).mpr hrecord
  haltedAtEnd := by simp [hs]
  faultInProgram := by simp [hs]
  idleAsPoweredUp := by simp [hs]

/-- A faulted core at an instruction of the program, with a true record. -/
theorem recordInv_takeFault {s : State} {what : Raised} (hin : s.codePtr < s.code.length)
    (hrecord : faultRecordTrue (s.takeFault what)) : RecordInv (s.takeFault what) where
  causeIffFault := by cases what <;> simp
  faultRecord := hrecord
  haltedAtEnd := nofun
  faultInProgram _ := hin
  idleAsPoweredUp := nofun

section
variable {i : Instr} {s t : State}

theorem CoreInv.recordInv_of_effect (hinv : CoreInv s) (hs : s.status = .running)
    (hin : InProgram s.code s.codePtr) (h : Effect i s t) : RecordInv t := by
  obtain ⟨hstatus, hcause, hpc, harg⟩ | ⟨what, rfl, hrecord⟩ := effect_record h hinv.outputWithin
  · have hnone : s.cause = .none := hinv.cause_none (by simp [hs])
    refine recordInv_of_running (hstatus.trans hs) (hcause.trans hnone) ?_
    rw [hpc, harg]
    exact (faultRecordTrue_of_cause_none hnone).mp hinv.faultRecord
  · exact recordInv_takeFault hin.2 hrecord

/-- A jump target is one past a byte of the program, so `code_ptr` is at most `N`. -/
theorem effect_codePtr_range (hin : InProgram s.code s.codePtr) (h : Effect i s t) :
    0 ≤ t.codePtr ∧ t.codePtr ≤ s.code.length := by
  obtain hstay | hadvance | ⟨dir, q, -, hmatch, hjump⟩ := effect_codePtr h
  · omega
  · omega
  · have hq : InProgram s.code q := scanFrom_inside hmatch
    omega

theorem effect_inputPtr_range (hs : 0 ≤ s.inputPtr ∧ s.inputPtr ≤ s.inputs.length) (h : Effect i s t) :
    0 ≤ t.inputPtr ∧ t.inputPtr ≤ s.inputs.length := by
  obtain hsame | ⟨-, hremains, hnext⟩ := effect_inputPtr h <;> omega

/-- An instruction of a running core, committed or faulted, keeps the invariant. -/
theorem CoreInv.of_effect (hinv : CoreInv s) (hs : s.status = .running) (hin : InProgram s.code s.codePtr)
    (h : Effect i s t) : CoreInv t := by
  obtain ⟨hcode, hinputs, hconfig⟩ := effect_sameLoad h
  have hrecord : RecordInv t := hinv.recordInv_of_effect hs hin h
  exact
    { coreExists := hconfig ▸ hinv.coreExists
      tapeCanonical := effect_mem_wf h hinv.tapeCanonical
      tapeWithin := effect_mem_within h hinv.tapeWithin
      codePtrRange := hcode ▸ effect_codePtr_range hin h
      inputPtrRange := hinputs ▸ effect_inputPtr_range hinv.inputPtrRange h
      loadedWithin := by rw [hconfig, hcode, hinputs]; exact hinv.loadedWithin
      outputWithin := effect_outputWithin h hinv.outputWithin
      causeIffFault := hrecord.causeIffFault
      faultRecord := hrecord.faultRecord
      haltedAtEnd := hrecord.haltedAtEnd
      faultInProgram := hrecord.faultInProgram
      idleAsPoweredUp := hrecord.idleAsPoweredUp }

end

theorem CoreInv.kept_by_step {s t : State} (hinv : CoreInv s) (h : step s = .next t) : CoreInv t := by
  obtain ⟨-, ⟨-, rfl⟩ | ⟨hs, hend, rfl⟩ | ⟨hs, -, i, hfetch, hexec⟩⟩ := step_next h
  · exact hinv
  · exact hinv.endRun hs (.inl ⟨rfl, hend⟩)
  · exact hinv.of_effect hs (inProgram_of_fetch hfetch) (exec_effect hexec)

/-- Settles O52: the wait changes nothing, the halt only the status, and an instruction writes within the invariant. -/
theorem invariantKeptByStep : Obligations.InvariantKeptByStep := fun _ _ => CoreInv.kept_by_step

theorem CoreInv.kept_by_runFor {k : Nat} {s t : State} (hinv : CoreInv s) (h : runFor k s = .next t) : CoreInv t :=
  runFor_induction (R := fun _ s t => CoreInv s → CoreInv t) (fun _ => id)
    (fun _ _ _ _ hstep hrest hinv => hrest (hinv.kept_by_step hstep)) h hinv

theorem CoreInv.kept_by_abort {s : State} (hinv : CoreInv s) : CoreInv (abort s) := by
  by_cases hs : s.status = .running
  · rw [abort_running hs]
    exact hinv.endRun hs (.inr rfl)
  · rw [abort, if_neg hs]
    exact hinv

/-- What a core that exists holds after an accepted START. -/
theorem coreInv_started {config : Config} {codeIn inputIn : List Byte} (hwf : config.wf = true)
    (haccepted : startAccepted config codeIn inputIn = true) : CoreInv (State.started config codeIn inputIn) where
  coreExists := hwf
  tapeCanonical := rfl
  tapeWithin := rfl
  codePtrRange := ⟨le_rfl, Int.natCast_nonneg _⟩
  inputPtrRange := ⟨le_rfl, Int.natCast_nonneg _⟩
  loadedWithin := haccepted
  outputWithin := withinBound_zero config.outCap
  causeIffFault := by simp [State.started]
  faultRecord := ⟨rfl, rfl⟩
  haltedAtEnd := nofun
  faultInProgram := nofun
  idleAsPoweredUp := nofun

theorem start_accepted {s : State} {codeIn inputIn : List Byte}
    (haccepted : startAccepted s.config codeIn inputIn = true) :
    start codeIn inputIn s = State.started s.config codeIn inputIn := if_pos haccepted

theorem start_refused {s : State} {codeIn inputIn : List Byte}
    (hrefused : startAccepted s.config codeIn inputIn = false) : start codeIn inputIn s = s :=
  if_neg (Bool.eq_false_iff.mp hrefused)

theorem CoreInv.kept_by_start {s : State} (hinv : CoreInv s) (codeIn inputIn : List Byte) :
    CoreInv (start codeIn inputIn s) := by
  cases haccepted : startAccepted s.config codeIn inputIn with
  | true =>
    rw [start_accepted haccepted]
    exact coreInv_started hinv.coreExists haccepted
  | false =>
    rw [start_refused haccepted]
    exact hinv

theorem start_config (s : State) (codeIn inputIn : List Byte) : (start codeIn inputIn s).config = s.config := by
  unfold start
  split <;> rfl

theorem applyHost_config {op : HostOp} {s t : State} (h : applyHost op s = .next t) : t.config = s.config := by
  cases op with
  | start codeIn inputIn =>
    rw [applyHost_start codeIn inputIn (applyHost_exists h)] at h
    cases h
    exact start_config s codeIn inputIn
  | _ =>
    obtain ⟨-, -, hconfig⟩ := programAndInputFixedForTheRun _ s t (by simp) h
    exact hconfig

theorem CoreInv.kept_by_applyHost {op : HostOp} {s t : State} (hinv : CoreInv s) (h : applyHost op s = .next t) :
    CoreInv t := by
  have hwf : s.config.wf = true := hinv.coreExists
  cases op with
  | start codeIn inputIn =>
    rw [applyHost_start codeIn inputIn hwf] at h
    cases h
    exact hinv.kept_by_start codeIn inputIn
  | run k =>
    rw [applyHost_run k hwf] at h
    exact hinv.kept_by_runFor h
  | step =>
    rw [applyHost_step hwf] at h
    exact hinv.kept_by_step h
  | abort =>
    rw [applyHost_abort hwf] at h
    cases h
    exact hinv.kept_by_abort

/-- Settles O59, operation by operation: START writes a whole state or none, RUN and STEP are transitions, ABORT ends a
run. -/
theorem invariantKeptByHost : Obligations.InvariantKeptByHost :=
  fun _ _ _ hinv h => ⟨hinv.kept_by_applyHost h, applyHost_config h⟩

/-- Power-up leaves an idle core with nothing loaded. -/
theorem coreInv_powerUp {config : Config} (hwf : config.wf = true) : CoreInv (State.powerUp config) where
  coreExists := hwf
  tapeCanonical := rfl
  tapeWithin := rfl
  codePtrRange := ⟨le_rfl, le_rfl⟩
  inputPtrRange := ⟨le_rfl, le_rfl⟩
  loadedWithin := Bool.and_eq_true_iff.mpr ⟨withinBound_zero config.codeMax, withinBound_zero config.inputMax⟩
  outputWithin := withinBound_zero config.outCap
  causeIffFault := by simp [State.powerUp]
  faultRecord := ⟨rfl, rfl⟩
  haltedAtEnd := nofun
  faultInProgram := nofun
  idleAsPoweredUp _ := rfl

/-- Settles O51: reset is the power-up of the default configuration, which has cells. -/
theorem invariantAtPowerUp : Obligations.InvariantAtPowerUp :=
  ⟨coreInv_powerUp rfl, fun _ => coreInv_powerUp⟩

/-- Settles O53, by induction on the host's operations. -/
theorem reachableStatesSatisfyInvariant : Obligations.ReachableStatesSatisfyInvariant := by
  intro config s hwf hreach
  induction hreach with
  | powerUp => exact ⟨coreInv_powerUp hwf, rfl⟩
  | host op _ h ih =>
    obtain ⟨hinv, hconfig⟩ := ih
    exact ⟨hinv.kept_by_applyHost h, (applyHost_config h).trans hconfig⟩

/-- An invariant state's transition answers: there is a byte at a `code_ptr` below `N`, and IN is not below the
stream. -/
theorem CoreInv.step_answers {s : State} (hinv : CoreInv s) : ∃ t, step s = .next t := by
  by_cases hs : s.status = .running
  · by_cases hend : atEnd s
    · exact ⟨_, step_atEnd hinv.coreExists hs hend⟩
    · obtain ⟨b, -, hfetch⟩ := fetch_inside hinv.codePtrRange.1 (Int.not_le.mp hend)
      rw [step_runs hinv.coreExists hs hfetch]
      exact exec_answers _ hinv.inputPtrRange.1
  · exact ⟨s, step_quiet hinv.coreExists hs⟩

theorem CoreInv.runFor_answers {s : State} (hinv : CoreInv s) (k : Nat) : ∃ t, runFor k s = .next t := by
  induction k generalizing s with
  | zero => exact ⟨s, rfl⟩
  | succ k ih =>
    obtain ⟨u, hu⟩ := hinv.step_answers
    rw [runFor_succ k hu]
    exact ih (hinv.kept_by_step hu)

/-- Settles O54: every transition of an invariant state answers an invariant state, so no run stops. -/
theorem machineNeverStops : Obligations.MachineNeverStops := by
  intro s hinv
  have hwf : s.config.wf = true := hinv.coreExists
  refine ⟨hinv.runFor_answers, fun op => ?_⟩
  cases op with
  | start codeIn inputIn => exact ⟨_, applyHost_start codeIn inputIn hwf⟩
  | run k =>
    rw [applyHost_run k hwf]
    exact hinv.runFor_answers k
  | step =>
    rw [applyHost_step hwf]
    exact hinv.step_answers
  | abort => exact ⟨_, applyHost_abort hwf⟩

end Sys2Proof.Machine

/-! ### The tape as data (20_memory.md section 2) -/

namespace Sys2Proof.Machine

open Sys2Proof

/-- A canonical tape has a cell that is not blank at its first listed address. -/
theorem Memory.read_head_ne_blank {lo k : Nat} {v : Byte} {rest : Memory}
    (h : Memory.wfFrom lo ((k, v) :: rest) = true) : Memory.read ((k, v) :: rest) k ≠ blankCell := by
  obtain ⟨-, hv, -⟩ := (Memory.wfFrom_cons ..).mp h
  rwa [Memory.read_cons, if_pos rfl]

/-- Of two tapes that read alike, the second lists nothing below the first one's first address, where the first is
blank. -/
theorem Memory.head_le_of_read_eq {lo₁ lo₂ k₁ k₂ : Nat} {v₁ v₂ : Byte} {rest₁ rest₂ : Memory}
    (h₁ : Memory.wfFrom lo₁ ((k₁, v₁) :: rest₁) = true) (h₂ : Memory.wfFrom lo₂ ((k₂, v₂) :: rest₂) = true)
    (hread : ∀ a, Memory.read ((k₁, v₁) :: rest₁) a = Memory.read ((k₂, v₂) :: rest₂) a) : k₁ ≤ k₂ := by
  by_contra hlt
  obtain ⟨-, hrest₁⟩ := (Memory.wfFrom_cons ..).mp h₁
  have hfrom : Memory.wfFrom k₁ ((k₁, v₁) :: rest₁) = true := (Memory.wfFrom_cons ..).mpr ⟨le_rfl, hrest₁⟩
  exact Memory.read_head_ne_blank h₂ (hread k₂ ▸ Memory.read_below _ hfrom (Nat.not_le.mp hlt))

theorem Memory.eq_of_read_eq {lo₁ lo₂ : Nat} {m₁ m₂ : Memory} (h₁ : Memory.wfFrom lo₁ m₁ = true)
    (h₂ : Memory.wfFrom lo₂ m₂ = true) (hread : ∀ a, m₁.read a = m₂.read a) : m₁ = m₂ := by
  induction m₁ generalizing lo₁ lo₂ m₂ with
  | nil =>
    cases m₂ with
    | nil => rfl
    | cons cell _ => exact absurd (hread cell.1).symm (Memory.read_head_ne_blank h₂)
  | cons cell₁ rest₁ ih =>
    cases m₂ with
    | nil => exact absurd (hread cell₁.1) (Memory.read_head_ne_blank h₁)
    | cons cell₂ rest₂ =>
      obtain ⟨k, v₁⟩ := cell₁
      obtain ⟨k₂, v₂⟩ := cell₂
      obtain rfl : k = k₂ := Nat.le_antisymm (Memory.head_le_of_read_eq h₁ h₂ hread)
        (Memory.head_le_of_read_eq h₂ h₁ fun a => (hread a).symm)
      obtain ⟨-, -, hrest₁⟩ := (Memory.wfFrom_cons ..).mp h₁
      obtain ⟨-, -, hrest₂⟩ := (Memory.wfFrom_cons ..).mp h₂
      have hhead : v₁ = v₂ := by simpa [Memory.read_cons] using hread k
      have htail : rest₁ = rest₂ := by
        refine ih hrest₁ hrest₂ fun a => ?_
        by_cases ha : k = a
        · rw [Memory.read_below rest₁ hrest₁ (by omega), Memory.read_below rest₂ hrest₂ (by omega)]
        · simpa [Memory.read_cons, ha] using hread a
      rw [hhead, htail]

/-- Settles O8, by induction along both lists: first addresses, first bytes and remaining tapes agree. -/
theorem canonicalTapesEqualWhenReadsAgree : Obligations.CanonicalTapesEqualWhenReadsAgree :=
  fun _ _ => Memory.eq_of_read_eq

end Sys2Proof.Machine

/-! ### From a way of an instruction to its execution -/

namespace Sys2Proof.Machine

open Sys2Proof

theorem exec_offTape {i : Instr} {s : State} (hi : usesTape i) (h0 : i = .input → 0 ≤ s.inputPtr)
    (hoff : ¬ onTape s.config s.memPtr) : exec i s = .next (s.takeFault (.memBounds s.memPtr)) := by
  obtain rfl | rfl | rfl | rfl | rfl | rfl := hi
  · rw [execCellDec_eq, if_neg hoff]
  · rw [execCellInc_eq, if_neg hoff]
  · rw [execLoopOpen_eq, if_neg hoff]
  · rw [execLoopClose_eq, if_neg hoff]
  · exact execIn_offTape (h0 rfl) hoff
  · rw [execOut_eq, if_neg hoff]

/-- The converse of `exec_effect`: each way of `Effect` is what its instruction does, IN not being below the stream. -/
theorem exec_of_effect {i : Instr} {s t : State} (h : Effect i s t) (h0 : i = .input → 0 ≤ s.inputPtr) :
    exec i s = .next t := by
  cases h with
  | moveLeft hfits => rw [execPtrDec_eq, if_pos hfits]
  | moveRight hfits => rw [execPtrInc_eq, if_pos hfits]
  | limitLeft hleaves => rw [execPtrDec_eq, if_neg (Bool.eq_false_iff.mp hleaves)]
  | limitRight hleaves => rw [execPtrInc_eq, if_neg (Bool.eq_false_iff.mp hleaves)]
  | offTape hi hoff => exact exec_offTape hi h0 hoff
  | decrement hon => rw [execCellDec_eq, if_pos hon]
  | increment hon => rw [execCellInc_eq, if_pos hon]
  | skipLoop hon hz hq => rw [execLoopOpen_eq_bracketJump, if_pos hon, if_pos hz, bracketJump_found hq]
  | noClose hon hz hnone => rw [execLoopOpen_eq_bracketJump, if_pos hon, if_pos hz, bracketJump_missing hnone]
  | enterLoop hon hnz => rw [execLoopOpen_eq_bracketJump, if_pos hon, if_neg hnz]
  | repeatLoop hon hnz hq => rw [execLoopClose_eq_bracketJump, if_pos hon, if_pos hnz, bracketJump_found hq]
  | noOpen hon hnz hnone => rw [execLoopClose_eq_bracketJump, if_pos hon, if_pos hnz, bracketJump_missing hnone]
  | leaveLoop hon hz => rw [execLoopClose_eq_bracketJump, if_pos hon, if_neg (not_not_intro hz)]
  | readInput hon hv => rw [execIn_read hv, if_pos hon]
  | exhausted hon hexhausted => rw [execIn_exhausted hexhausted, if_pos hon]
  | append hon hroom => rw [execOut_eq, if_pos hon, if_neg (Bool.eq_false_iff.mp hroom)]
  | limitOutput hon hfull => rw [execOut_eq, if_pos hon, if_pos hfull]
  | skip => exact execNop_eq _ s

/-- IN answers a next state only where its input pointer is not below the stream. -/
theorem inputPtr_nonneg_of_exec {i : Instr} {s t : State} (h : exec i s = .next t) (hi : i = .input) :
    0 ≤ s.inputPtr := by
  by_contra hbelow
  rw [hi, execIn_below (Int.not_le.mp hbelow)] at h
  cases h

end Sys2Proof.Machine

/-! ### What an instruction reads of the tape (20_memory.md section 2) -/

namespace Sys2Proof.Machine

open Sys2Proof

/-- On another tape with the same current cell an instruction goes the same way, and the current cells agree again. -/
theorem effect_setMem {i : Instr} {s t : State} {m : Memory}
    (hm : m.read s.memPtr.toNat = s.mem.read s.memPtr.toNat) (h : Effect i s t) :
    ∃ m', Effect i (s.setMem m) (t.setMem m') ∧ m'.read s.memPtr.toNat = t.mem.read s.memPtr.toNat := by
  cases h with
  | moveLeft hfits => exact ⟨m, .moveLeft hfits, hm⟩
  | moveRight hfits => exact ⟨m, .moveRight hfits, hm⟩
  | limitLeft hleaves => exact ⟨m, .limitLeft hleaves, hm⟩
  | limitRight hleaves => exact ⟨m, .limitRight hleaves, hm⟩
  | offTape hi hoff => exact ⟨m, .offTape hi hoff, hm⟩
  | decrement hon => exact ⟨_, .decrement hon, by simp [hm]⟩
  | increment hon => exact ⟨_, .increment hon, by simp [hm]⟩
  | skipLoop hon hz hq => exact ⟨m, .skipLoop hon (hm.trans hz) hq, hm⟩
  | noClose hon hz hnone => exact ⟨m, .noClose hon (hm.trans hz) hnone, hm⟩
  | enterLoop hon hnz => exact ⟨m, .enterLoop hon (hm.trans_ne hnz), hm⟩
  | repeatLoop hon hnz hq => exact ⟨m, .repeatLoop hon (hm.trans_ne hnz) hq, hm⟩
  | noOpen hon hnz hnone => exact ⟨m, .noOpen hon (hm.trans_ne hnz) hnone, hm⟩
  | leaveLoop hon hz => exact ⟨m, .leaveLoop hon (hm.trans hz), hm⟩
  | readInput hon hv => exact ⟨_, .readInput hon hv, by simp⟩
  | exhausted hon hexhausted => exact ⟨_, .exhausted hon hexhausted, by simp⟩
  | append hon hroom =>
    refine ⟨m, ?_, hm⟩
    have happend : Effect .output (s.setMem m) _ := .append hon hroom
    rwa [setMem_mem, setMem_memPtr, hm] at happend
  | limitOutput hon hfull => exact ⟨m, .limitOutput hon hfull, hm⟩
  | skip => exact ⟨m, .skip, hm⟩

/-- Settles O22: the same way is open on the other tape, and a way determines what is executed. -/
theorem onlyCurrentCellIsRead : Obligations.OnlyCurrentCellIsRead := by
  intro i s t m hm h
  obtain ⟨m', heffect, hcell⟩ := effect_setMem hm (exec_effect h)
  have h0 : i = .input → 0 ≤ s.inputPtr := inputPtr_nonneg_of_exec h
  exact ⟨m', exec_of_effect heffect h0, hcell⟩

end Sys2Proof.Machine

/-! ### When which fault is raised (60_exceptions.md section 1) -/

namespace Sys2Proof.Machine

open Sys2Proof

/-- The condition under which an instruction raises a cause. -/
def faultCondition (i : Instr) (s : State) : Cause → Prop
  | .none => False
  | .memBounds => usesTape i ∧ ¬ onTape s.config s.memPtr
  | .unbalanced =>
    onTape s.config s.memPtr ∧
      (i = .loopOpen ∧ s.mem.read s.memPtr.toNat = 0 ∧ matchBracket s.code s.codePtr .forward = none ∨
        i = .loopClose ∧ s.mem.read s.memPtr.toNat ≠ 0 ∧ matchBracket s.code s.codePtr .backward = none)
  | .resourceLimit =>
    (∃ values, s.config.ptrRange = some values ∧
        (i = .ptrDec ∧ s.memPtr - 1 ∉ values ∨ i = .ptrInc ∧ s.memPtr + 1 ∉ values)) ∨
      ∃ cap, s.config.outCap = some cap ∧ i = .output ∧ onTape s.config s.memPtr ∧ cap ≤ s.output.length

/-- A way that changes the cause is a fault, and its guards are the condition of that cause. -/
theorem effect_faultCondition {i : Instr} {s t : State} (h : Effect i s t) (hcause : t.cause ≠ s.cause) :
    faultCondition i s t.cause := by
  cases h with
  | limitLeft hleaves =>
    obtain ⟨values, hrange, hout⟩ := (cursorFits_false_iff _ _).mp hleaves
    exact .inl ⟨values, hrange, .inl ⟨rfl, hout⟩⟩
  | limitRight hleaves =>
    obtain ⟨values, hrange, hout⟩ := (cursorFits_false_iff _ _).mp hleaves
    exact .inl ⟨values, hrange, .inr ⟨rfl, hout⟩⟩
  | offTape hi hoff => exact ⟨hi, hoff⟩
  | noClose hon hz hnone => exact ⟨hon, .inl ⟨rfl, hz, hnone⟩⟩
  | noOpen hon hnz hnone => exact ⟨hon, .inr ⟨rfl, hnz, hnone⟩⟩
  | limitOutput hon hfull =>
    obtain ⟨cap, hcap, hreached⟩ := (outputFull_iff s).mp hfull
    exact .inr ⟨cap, hcap, rfl, hon, hreached⟩
  | _ => exact absurd rfl hcause

/-- Under the condition of a cause there is a way of the instruction that raises it. -/
theorem exists_effect_of_faultCondition {i : Instr} {s : State} {cause : Cause} (h : faultCondition i s cause) :
    ∃ t, Effect i s t ∧ t.cause = cause := by
  cases cause with
  | none => exact h.elim
  | memBounds =>
    obtain ⟨hi, hoff⟩ := h
    exact ⟨_, .offTape hi hoff, rfl⟩
  | unbalanced =>
    obtain ⟨hon, ⟨rfl, hz, hnone⟩ | ⟨rfl, hnz, hnone⟩⟩ := h
    · exact ⟨_, .noClose hon hz hnone, rfl⟩
    · exact ⟨_, .noOpen hon hnz hnone, rfl⟩
  | resourceLimit =>
    obtain ⟨values, hrange, ⟨rfl, hout⟩ | ⟨rfl, hout⟩⟩ | ⟨cap, hcap, rfl, hon, hreached⟩ := h
    · exact ⟨_, .limitLeft ((cursorFits_false_iff _ _).mpr ⟨values, hrange, hout⟩), rfl⟩
    · exact ⟨_, .limitRight ((cursorFits_false_iff _ _).mpr ⟨values, hrange, hout⟩), rfl⟩
    · exact ⟨_, .limitOutput hon ((outputFull_iff s).mpr ⟨cap, hcap, hreached⟩), rfl⟩

/-- With no fault recorded, an instruction answers a cause exactly under that cause's condition. The premise on
`input_ptr` matters for MEM_BOUNDS alone, which IN can raise. -/
theorem exec_cause_iff_faultCondition {i : Instr} {s : State} {cause : Cause} (hs : s.cause = .none)
    (hcause : cause ≠ .none) (h0 : cause = .memBounds → 0 ≤ s.inputPtr) :
    (∃ t, exec i s = .next t ∧ t.cause = cause) ↔ faultCondition i s cause := by
  constructor
  · rintro ⟨t, hexec, rfl⟩
    exact effect_faultCondition (exec_effect hexec) (hs ▸ hcause)
  · intro h
    obtain ⟨t, heffect, ht⟩ := exists_effect_of_faultCondition h
    refine ⟨t, exec_of_effect heffect fun hi => ?_, ht⟩
    subst hi
    cases cause with
    | memBounds => exact h0 rfl
    | _ => simp [faultCondition] at h

/-- Settles O23: the condition of MEM_BOUNDS. -/
theorem memBoundsExactlyOffTheTape : Obligations.MemBoundsExactlyOffTheTape :=
  fun _ _ hs h0 => exec_cause_iff_faultCondition hs nofun fun _ => h0

/-- Settles O24: the condition of UNBALANCED. -/
theorem unbalancedExactlyOnFailedScan : Obligations.UnbalancedExactlyOnFailedScan :=
  fun _ _ hs => exec_cause_iff_faultCondition hs nofun nofun

/-- Settles O25: the condition of RESOURCE_LIMIT. -/
theorem resourceLimitExactlyAtFiniteCapacity : Obligations.ResourceLimitExactlyAtFiniteCapacity :=
  fun _ _ hs => exec_cause_iff_faultCondition hs nofun nofun

end Sys2Proof.Machine

/-! ### Power-up, registers and the host's operations (10_state.md, 70_reset_and_hazards.md section 1) -/

namespace Sys2Proof.Machine

open Sys2Proof

/-- Settles O5: the record of R39 field by field; the start cursor is the integer quotient. -/
theorem powerUpValues : Obligations.PowerUpValues :=
  ⟨fun _ => rfl, fun _ _ => rfl, rfl, rfl⟩

/-- Settles O6, by the two register tables. -/
theorem controlRegisterEncodings : Obligations.ControlRegisterEncodings :=
  ⟨⟨rfl, rfl, rfl, rfl, rfl⟩, ⟨rfl, rfl, rfl, rfl⟩, fun _ => rfl⟩

/-- Settles O27: at a program byte the transition is the dispatch of its decoding. -/
theorem stepRunsDecodedInstruction : Obligations.StepRunsDecodedInstruction := by
  intro s b hwf hs h0 hb
  have hfetch : fetch s = some (decodeByte b) := by
    rw [fetch, codeRead, byteAt_nonneg s.code h0, hb, Option.map_some]
  exact ⟨step_runs hwf hs hfetch, decodeByte_wf b⟩

theorem withinBound_false_iff (bound : Option Nat) (n : Nat) :
    withinBound bound n = false ↔ ∃ most, bound = some most ∧ most < n := by
  cases bound <;> simp [withinBound]

/-- Settles O29: START accepts exactly within both bounds, and what it leaves names the configuration alone of the old
state. -/
theorem startLoadsAFreshRun : Obligations.StartLoadsAFreshRun := by
  intro s codeIn inputIn hsize
  have hwf : s.config.wf = true := decide_eq_true hsize
  rw [applyHost_start codeIn inputIn hwf]
  refine ⟨fun ⟨hcode, hinput⟩ => ?_, fun hbeyond => ?_⟩
  · have haccepted : startAccepted s.config codeIn inputIn = true := by
      rw [startAccepted, (withinBound_iff ..).mpr hcode, (withinBound_iff ..).mpr hinput, Bool.and_true]
    rw [start_accepted haccepted]
    rfl
  · have hrefused : startAccepted s.config codeIn inputIn = false := by
      rw [startAccepted, Bool.and_eq_false_iff]
      exact hbeyond.imp (withinBound_false_iff ..).mpr (withinBound_false_iff ..).mpr
    rw [start_refused hrefused]

theorem abort_quiet {s : State} (hs : s.status ≠ .running) : abort s = s := if_neg hs

/-- Settles O30: ABORT and STEP on a core that exists, and a RUN of one transition is a step. -/
theorem abortAndSingleStep : Obligations.AbortAndSingleStep := by
  refine fun s hwf => ⟨fun hs => ?_, applyHost_step hwf, ?_⟩
  · rw [applyHost_abort hwf, abort_running hs]
    rfl
  · rw [applyHost_run 1 hwf, runFor_one]

/-- Settles O26: each operation but START, outside RUNNING. -/
theorem onlyStartLeavesQuiescentStatus : Obligations.OnlyStartLeavesQuiescentStatus := by
  intro op s hwf hs hop
  cases op with
  | start codeIn inputIn => exact absurd rfl (hop codeIn inputIn)
  | run k => rw [applyHost_run k hwf, runFor_quiet k hwf hs]
  | step => rw [applyHost_step hwf, step_quiet hwf hs]
  | abort => rw [applyHost_abort hwf, abort_quiet hs]

/-- Settles O35: the result's table, status by status. -/
theorem runResultByStatus : Obligations.RunResultByStatus := by
  refine fun s => ⟨fun hs => ?_, fun hs => ?_, fun hhalted hfault => ?_⟩
  · rw [runResult, hs]
  · rw [runResult, hs]
  · cases hs : s.status with
    | halted => exact absurd hs hhalted
    | fault => exact absurd hs hfault
    | idle | running | stopped => rw [runResult, hs]

/-- Settles O56: an accepted START leaves a state made of configuration, program and input alone. -/
theorem runsAreIndependent : Obligations.RunsAreIndependent := by
  intro s₁ s₂ u₁ u₂ codeIn inputIn k hconfig haccepted h₁ h₂
  rw [applyHost_start codeIn inputIn (applyHost_exists h₁), start_accepted haccepted] at h₁
  have haccepted₂ : startAccepted s₂.config codeIn inputIn = true := hconfig ▸ haccepted
  rw [applyHost_start codeIn inputIn (applyHost_exists h₂), start_accepted haccepted₂, ← hconfig] at h₂
  cases h₁
  cases h₂
  rfl

end Sys2Proof.Machine

/-! ### Runs (10_state.md section 2, 40_step_engine.md section 3, 60_exceptions.md section 2) -/

namespace Sys2Proof.Machine

open Sys2Proof

theorem step_exists {s t : State} (h : step s = .next t) : s.config.wf = true := (step_next h).1

/-- What one transition does to the input pointer, in any status. -/
theorem step_inputPtr {s t : State} (h : step s = .next t) :
    t.inputPtr = s.inputPtr ∨
      s.status = .running ∧ fetch s = some .input ∧ s.inputPtr < s.inputs.length ∧ t.inputPtr = s.inputPtr + 1 := by
  obtain ⟨-, ⟨-, rfl⟩ | ⟨-, -, rfl⟩ | ⟨hrun, -, i, hfetch, hexec⟩⟩ := step_next h
  · exact .inl rfl
  · exact .inl (halt_inputPtr s)
  · obtain hsame | ⟨rfl, hremains, hnext⟩ := effect_inputPtr (exec_effect hexec)
    · exact .inl hsame
    · exact .inr ⟨hrun, hfetch, hremains, hnext⟩

theorem runFor_inputPtr {k : Nat} {s t : State} (h : runFor k s = .next t) :
    s.inputPtr ≤ t.inputPtr ∧ t.inputPtr ≤ s.inputPtr + k := by
  refine runFor_induction (R := fun k s t => s.inputPtr ≤ t.inputPtr ∧ t.inputPtr ≤ s.inputPtr + k)
    (fun _ => by simp) (fun k s u t hstep ⟨hlow, hhigh⟩ => ?_) h
  obtain hsame | ⟨-, -, -, hnext⟩ := step_inputPtr hstep <;> push_cast <;> omega

/-- Settles O34: one step advances by at most 1 and only by IN; a run adds its steps' advances. -/
theorem inputPointerOnlyAdvances : Obligations.InputPointerOnlyAdvances :=
  ⟨fun _ _ _ => runFor_inputPtr, fun _ _ => step_inputPtr⟩

/-- A transition that moves the cursor moves it within a finite `PTR_RANGE`. -/
theorem step_memPtr_in_range {s t : State} {values : List Int} (hrange : s.config.ptrRange = some values)
    (hs : s.memPtr ∈ values) (h : step s = .next t) : t.memPtr ∈ values := by
  obtain ⟨-, ⟨-, rfl⟩ | ⟨-, -, rfl⟩ | ⟨-, -, i, -, hexec⟩⟩ := step_next h
  · exact hs
  · exact hs
  · obtain hsame | ⟨-, hfits⟩ := effect_memPtr (exec_effect hexec)
    · rwa [hsame]
    · exact (cursorFits_iff s.config t.memPtr).mp hfits values hrange

/-- Settles O38, by induction on the run; the range is the configuration's and stays. -/
theorem cursorStaysInPtrRange : Obligations.CursorStaysInPtrRange := by
  intro k s t values hrange hs h
  refine runFor_induction
    (R := fun _ s t => s.config.ptrRange = some values → s.memPtr ∈ values → t.memPtr ∈ values)
    (fun _ _ => id) (fun _ s u t hstep hrest hrange hs => ?_) h hrange hs
  exact hrest (step_config hstep ▸ hrange) (step_memPtr_in_range hrange hs hstep)

/-- A run that leaves RUNNING does so in one of its transitions and is quiet after it. -/
theorem runFor_leaves_running {k : Nat} {s t : State} (hs : s.status = .running) (h : runFor k s = .next t)
    (ht : t.status ≠ .running) :
    ∃ j u, j < k ∧ runFor j s = .next u ∧ u.status = .running ∧ step u = .next t := by
  induction k generalizing s with
  | zero =>
    cases h
    exact absurd hs ht
  | succ k ih =>
    obtain ⟨v, hv, hrest⟩ := runFor_succ_next h
    by_cases hrun : v.status = .running
    · obtain ⟨j, u, hj, hju, hu, hstep⟩ := ih hrun hrest
      exact ⟨j + 1, u, by omega, (runFor_succ j hv).trans hju, hu, hstep⟩
    · have hwf : v.config.wf = true := step_config hv ▸ step_exists hv
      rw [runFor_quiet k hwf hrun] at hrest
      cases hrest
      exact ⟨0, s, k.succ_pos, rfl, hs, hv⟩

/-- A transition of a running core that ends in FAULT is the fault's entry. -/
theorem step_takesFault {s t : State} (hs : s.status = .running) (h : step s = .next t) (ht : t.status = .fault) :
    ∃ what, t = s.takeFault what := by
  obtain ⟨-, ⟨hquiet, -⟩ | ⟨-, -, rfl⟩ | ⟨-, -, i, -, hexec⟩⟩ := step_next h
  · exact absurd hs hquiet
  · cases ht
  · obtain hkept | hfault := exec_commits_or_takesFault hexec
    · rw [hkept, hs] at ht
      cases ht
    · exact hfault

/-- Settles O36: a faulted run left RUNNING in one transition, which can only be the entry of that fault. -/
theorem firstFaultEndsTheRun : Obligations.FirstFaultEndsTheRun := by
  intro k s t hs h
  by_cases ht : t.status = .fault
  · obtain ⟨j, u, hj, hju, hu, hstep⟩ := runFor_leaves_running hs h (by simp [ht])
    obtain ⟨what, rfl⟩ := step_takesFault hu hstep ht
    exact .inr ⟨j, u, hj, hju, hu, rfl⟩
  · exact .inl ⟨t, h, ht⟩

end Sys2Proof.Machine

/-! ### The counts of a run (40_step_engine.md R119) -/

namespace Sys2Proof.Machine

open Sys2Proof

theorem callsStep_quiet {s : State} (hs : s.status ≠ .running) : callsStep s = false := by
  simp [callsStep, hs]

theorem stepCount_quiet (k : Nat) {s : State} (hwf : s.config.wf = true) (hs : s.status ≠ .running) :
    stepCount k s = 0 := by
  induction k with
  | zero => rfl
  | succ k ih => simp [stepCount_succ k (step_quiet hwf hs), callsStep_quiet hs, ih]

theorem committedSteps_quiet (k : Nat) {s : State} (hwf : s.config.wf = true) (hs : s.status ≠ .running) :
    committedSteps k s = 0 := by
  induction k with
  | zero => rfl
  | succ k ih => simp [committedSteps_succ k (step_quiet hwf hs), callsStep_quiet hs, ih]

/-- A run that is still RUNNING was RUNNING after its first transition, for RUNNING is never come back to. -/
theorem running_of_runFor_running {k : Nat} {s t : State} (hwf : s.config.wf = true) (h : runFor k s = .next t)
    (ht : t.status = .running) : s.status = .running := by
  by_contra hs
  rw [runFor_quiet k hwf hs] at h
  cases h
  exact hs ht

/-- A transition that stays in RUNNING calls the step engine. -/
theorem callsStep_of_running {s t : State} (h : step s = .next t) (ht : t.status = .running) : callsStep s = true := by
  refine (callsStep_iff s).mpr ?_
  obtain ⟨-, ⟨hquiet, rfl⟩ | ⟨-, -, rfl⟩ | ⟨hs, hin, -⟩⟩ := step_next h
  · exact absurd ht hquiet
  · cases ht
  · exact ⟨hs, hin⟩

/-- While the core stays RUNNING both counts count every transition, whatever comes after. -/
theorem counts_of_running {k : Nat} {s t : State} (h : runFor k s = .next t) (ht : t.status = .running) (j : Nat) :
    stepCount (k + j) s = k + stepCount j t ∧ committedSteps (k + j) s = k + committedSteps j t := by
  induction k generalizing s with
  | zero =>
    cases h
    simp
  | succ k ih =>
    obtain ⟨u, hu, hrest⟩ := runFor_succ_next h
    have hwf : u.config.wf = true := step_config hu ▸ step_exists hu
    have hrun : u.status = .running := running_of_runFor_running hwf hrest ht
    have hcalls : callsStep s = true := callsStep_of_running hu hrun
    obtain ⟨hsteps, hcommitted⟩ := ih hrest
    rw [Nat.add_right_comm, stepCount_succ _ hu, committedSteps_succ _ hu, hsteps, hcommitted]
    simp only [hcalls, hrun, decide_true, Bool.and_self, if_true]
    omega

/-- The transition that leaves RUNNING is a step unless it is the halt, and not a committed one; nothing after it
counts. -/
theorem counts_of_leaving {t u : State} (h : step t = .next u) (hu : u.status ≠ .running) (j : Nat) :
    stepCount (1 + j) t = (if callsStep t then 1 else 0) ∧ committedSteps (1 + j) t = 0 := by
  have hwf : u.config.wf = true := step_config h ▸ step_exists h
  rw [Nat.add_comm, stepCount_succ j h, committedSteps_succ j h, stepCount_quiet j hwf hu,
    committedSteps_quiet j hwf hu]
  simp [hu]

/-- At the program's end nothing is counted: a next state is the halt, which is quiet, and there is no other. -/
theorem counts_atEnd {t : State} (hend : atEnd t) (j : Nat) :
    stepCount (1 + j) t = 0 ∧ committedSteps (1 + j) t = 0 := by
  have hcalls : callsStep t = false := Bool.eq_false_iff.mpr fun hcalls => ((callsStep_iff t).mp hcalls).2 hend
  cases hstep : step t with
  | next u =>
    have hu : u.status ≠ .running := fun hu => Bool.eq_false_iff.mp hcalls (callsStep_of_running hstep hu)
    simpa [hcalls] using counts_of_leaving hstep hu j
  | fault why | refused why =>
    rw [Nat.add_comm, stepCount, committedSteps, hstep]
    exact ⟨rfl, rfl⟩

/-- A faulting transition was taken at an instruction. -/
theorem not_atEnd_of_step_fault {t u : State} (ht : t.status = .running) (h : step t = .next u)
    (hu : u.status = .fault) : ¬ atEnd t := by
  intro hend
  rw [step_atEnd (step_exists h) ht hend] at h
  cases h
  cases hu

/-- Settles O37: the counts of the part in RUNNING, then those of the one transition that leaves it, a halt or a
fault. -/
theorem stepCountExcludesTheHalt : Obligations.StepCountExcludesTheHalt := by
  intro k s t _ h ht
  obtain ⟨hsteps, hcommitted⟩ := counts_of_running h ht 0
  refine ⟨hsteps, hcommitted, fun hend j => ?_, fun u hstep hu j => ?_⟩
  · obtain ⟨hsteps, hcommitted⟩ := counts_of_running h ht (1 + j)
    obtain ⟨hlast, hlastCommitted⟩ := counts_atEnd hend j
    rw [Nat.add_assoc, hsteps, hcommitted, hlast, hlastCommitted]
    exact ⟨rfl, rfl⟩
  · obtain ⟨hsteps, hcommitted⟩ := counts_of_running h ht (1 + j)
    obtain ⟨hlast, hlastCommitted⟩ := counts_of_leaving hstep (by simp [hu]) j
    have hcalls : callsStep t = true := (callsStep_iff t).mpr ⟨ht, not_atEnd_of_step_fault ht hstep hu⟩
    rw [Nat.add_assoc, hsteps, hcommitted, hlast, hlastCommitted, if_pos hcalls]
    exact ⟨rfl, rfl⟩

end Sys2Proof.Machine

/-! ### The resolver's answer and its counter (43_loop.md section 1) -/

namespace Sys2Proof.Machine

open Sys2Proof

/-- The bracket that a scan in a direction looks for. -/
def Dir.closing : Dir → Byte
  | .forward => 0x5D
  | .backward => 0x5B

section
variable {code : List Byte} {p0 : Int} {dir : Dir} {k : Nat}

/-- A scan that is still in the program has gone less than the program's length. -/
theorem ScanReaches.lt_length (h : ScanReaches code p0 dir k) (hin : InProgram code (scanPos p0 dir k)) :
    k < code.length := by
  refine lt_length_of_scanPos_inProgram ?_ hin
  cases k with
  | zero => exact hin
  | succ m => exact (h 0 m.succ_pos).1

/-- The inversion of a match: the scan came to `q` in the program, and there the counter came to 0. -/
theorem exists_scanReaches_of_match {q : Int} (h : matchBracket code p0 dir = some q) :
    ∃ k, q = scanPos p0 dir k ∧ ScanReaches code p0 dir k ∧ InProgram code (scanPos p0 dir k) ∧
      depthAfter code p0 dir (k + 1) = 0 := by
  obtain ⟨k, hreach, hout | ⟨hin, hzero⟩⟩ := exists_scan_end code p0 dir
  · rw [hreach.matchBracket_missing hout] at h
    cases h
  · rw [hreach.matchBracket_found hin hzero] at h
    cases h
    exact ⟨k, rfl, hreach, hin, hzero⟩

/-- What the byte at a position adds to the counter; a position outside the program adds nothing. -/
def deltaAt (code : List Byte) (dir : Dir) (p : Int) : Int :=
  match codeRead code p with
  | none => 0
  | some b => bracketDelta b dir

theorem deltaAt_of_codeRead {p : Int} {b : Byte} (h : codeRead code p = some b) :
    deltaAt code dir p = bracketDelta b dir := by
  rw [deltaAt, h]

theorem deltaAt_cases (code : List Byte) (dir : Dir) (p : Int) :
    deltaAt code dir p = 1 ∨ deltaAt code dir p = -1 ∨ deltaAt code dir p = 0 := by
  cases h : codeRead code p with
  | none =>
    rw [deltaAt, h]
    exact .inr (.inr rfl)
  | some b =>
    rw [deltaAt_of_codeRead h]
    exact bracketDelta_cases b dir

theorem depthAfter_zero (code : List Byte) (p0 : Int) (dir : Dir) : depthAfter code p0 dir 0 = 1 := rfl

theorem depthAfter_succ_eq (code : List Byte) (p0 : Int) (dir : Dir) (k : Nat) :
    depthAfter code p0 dir (k + 1) = depthAfter code p0 dir k + deltaAt code dir (scanPos p0 dir k) := rfl

/-- Where a byte counts against the scan's direction it is the other bracket. -/
theorem codeRead_of_deltaAt_neg {p : Int} (h : deltaAt code dir p = -1) : codeRead code p = some dir.closing := by
  cases hb : codeRead code p with
  | none => simp [deltaAt, hb] at h
  | some b =>
    rw [deltaAt_of_codeRead hb] at h
    have hbracket : b = 0x5B ∨ b = 0x5D := (bracketDelta_ne_zero_iff b dir).mp (by simp [h])
    obtain rfl | rfl := hbracket
    · rw [bracketDelta_open] at h
      cases dir with
      | forward => cases h
      | backward => rfl
    · rw [bracketDelta_close] at h
      cases dir with
      | forward => rfl
      | backward => cases h

/-- The counter starts at 1, moves by at most 1 at a time and is never 0, so it stays positive. -/
theorem ScanReaches.one_le_depthAfter (h : ScanReaches code p0 dir k) {j : Nat} (hj : j ≤ k) :
    1 ≤ depthAfter code p0 dir j := by
  induction j with
  | zero => exact le_rfl
  | succ j ih =>
    have hbefore : 1 ≤ depthAfter code p0 dir j := ih (by omega)
    have hnonzero : depthAfter code p0 dir (j + 1) ≠ 0 := h.depthAfter_ne_zero hj
    rw [depthAfter_succ_eq] at hnonzero ⊢
    obtain hd | hd | hd := deltaAt_cases code dir (scanPos p0 dir j) <;> omega

/-- The last byte of a match brought the counter from 1 to 0. -/
theorem ScanReaches.last_delta (h : ScanReaches code p0 dir k) (hzero : depthAfter code p0 dir (k + 1) = 0) :
    depthAfter code p0 dir k = 1 ∧ deltaAt code dir (scanPos p0 dir k) = -1 := by
  have hpos : 1 ≤ depthAfter code p0 dir k := h.one_le_depthAfter le_rfl
  rw [depthAfter_succ_eq] at hzero
  obtain hd | hd | hd := deltaAt_cases code dir (scanPos p0 dir k) <;> omega

/-- A position adds to the brackets scanned exactly where it moves the counter. -/
theorem bracketsScanned_succ_eq (code : List Byte) (p0 : Int) (dir : Dir) (k : Nat) :
    bracketsScanned code p0 dir (k + 1) =
      bracketsScanned code p0 dir k + if deltaAt code dir (scanPos p0 dir k) ≠ 0 then 1 else 0 := by
  cases hb : codeRead code (scanPos p0 dir k) with
  | none =>
    have hdelta : deltaAt code dir (scanPos p0 dir k) = 0 := by rw [deltaAt, hb]
    rw [scanPos] at hb
    rw [bracketsScanned, hb, if_neg (not_not_intro hdelta)]
  | some b =>
    rw [bracketsScanned_succ hb, deltaAt_of_codeRead hb]
    simp only [bracketDelta_ne_zero_iff]

theorem bracketsScanned_le (code : List Byte) (p0 : Int) (dir : Dir) (k : Nat) : bracketsScanned code p0 dir k ≤ k := by
  induction k with
  | zero => exact le_rfl
  | succ k ih =>
    rw [bracketsScanned_succ_eq]
    split <;> omega

/-- The counter starts at 1 and grows by at most 1 at a bracket. -/
theorem depthAfter_le_bracketsScanned (code : List Byte) (p0 : Int) (dir : Dir) (k : Nat) :
    depthAfter code p0 dir k ≤ bracketsScanned code p0 dir k + 1 := by
  induction k with
  | zero => exact le_rfl
  | succ k ih =>
    rw [depthAfter_succ_eq, bracketsScanned_succ_eq]
    obtain hd | hd | hd := deltaAt_cases code dir (scanPos p0 dir k) <;> simp [hd] <;> omega

theorem ScanReaches.of_le (h : ScanReaches code p0 dir k) {j : Nat} (hj : j ≤ k) : ScanReaches code p0 dir j :=
  fun i hi => h i (hi.trans_le hj)

/-- A scan that fails comes to every position up to its leaving the program. -/
theorem scanReaches_of_missing (hnone : matchBracket code p0 dir = none)
    (hin : ∀ i < k, InProgram code (scanPos p0 dir i)) : ScanReaches code p0 dir k := by
  induction k with
  | zero => exact scanReaches_zero
  | succ k ih =>
    have hreach : ScanReaches code p0 dir k := ih fun i hi => hin i (hi.trans k.lt_succ_self)
    have hlast : InProgram code (scanPos p0 dir k) := hin k k.lt_succ_self
    refine scanReaches_succ_iff.mpr ⟨hreach, hlast, fun hzero => ?_⟩
    rw [hreach.matchBracket_found hlast hzero] at hnone
    cases hnone

theorem scanPos_sub_mul_step (p0 : Int) (dir : Dir) (k : Nat) : (scanPos p0 dir k - p0) * dir.step = k + 1 := by
  cases dir <;> simp [scanPos]

end

/-- Settles O41: a failed scan's end is outside the program, and conversely such an end makes the scan fail. -/
theorem matchFailsExactlyOffTheEnd : Obligations.MatchFailsExactlyOffTheEnd := by
  intro code p0 dir
  constructor
  · intro hnone
    obtain ⟨k, hreach, hout | ⟨hin, hzero⟩⟩ := exists_scan_end code p0 dir
    · exact ⟨k, hout, fun j hj => ⟨hreach.depthAfter_ne_zero hj, fun hlt => (hreach j hlt).1⟩⟩
    · rw [hreach.matchBracket_found hin hzero] at hnone
      cases hnone
  · rintro ⟨k, hout, hbefore⟩
    have hreach : ScanReaches code p0 dir k := fun j hj => by
      obtain ⟨-, hin⟩ := hbefore j hj.le
      obtain ⟨hdepth, -⟩ := hbefore (j + 1) hj
      exact ⟨hin hj, hdepth⟩
    exact hreach.matchBracket_missing hout

/-- Settles O42: a scan ends at an index `k` of at most `N`, below `N` if it returns, so `N` rounds bring it there. -/
theorem scanEndsWithinProgramLength : Obligations.ScanEndsWithinProgramLength := by
  intro code p0 dir rounds hrounds
  obtain ⟨k, hreach, hout | ⟨hin, hzero⟩⟩ := exists_scan_end code p0 dir
  · have hsplit : rounds = rounds - k + k := by have hle := hreach.le_length; omega
    rw [hreach.matchBracket_missing hout, hsplit, hreach.scanFrom_eq]
    cases rounds - k with
    | zero => rfl
    | succ r => exact scanFrom_scanAt_outside r hout
  · have hsplit : rounds = rounds - (k + 1) + 1 + k := by have hlt := hreach.lt_length hin; omega
    rw [hreach.matchBracket_found hin hzero, hsplit, hreach.scanFrom_eq, scanFrom_scanAt_inProgram _ hin, if_pos hzero]

/-- Settles O43: the position is a scan position in the program, and its byte counted against the direction. -/
theorem matchIsTheOtherBracket : Obligations.MatchIsTheOtherBracket := by
  refine fun code p0 q => ⟨fun hmatch => ?_, fun hmatch => ?_⟩
  all_goals
    obtain ⟨k, rfl, hreach, ⟨h0, h1⟩, hzero⟩ := exists_scanReaches_of_match hmatch
    obtain ⟨-, hdelta⟩ := hreach.last_delta hzero
    refine ⟨?_, h0, h1, codeRead_of_deltaAt_neg hdelta⟩
    simp only [scanPos, dirStep_forward, dirStep_backward]
    omega

/-- Settles O44: in both cases the scan comes to index `j`, where the counter is positive and the brackets are among the
`j` positions scanned. -/
theorem nestingCounterStaysPositive : Obligations.NestingCounterStaysPositive := by
  intro code p0 dir j hscan
  have hreach : ScanReaches code p0 dir j := by
    obtain ⟨q, hmatch, hj⟩ | ⟨hnone, hin⟩ := hscan
    · obtain ⟨k, rfl, hreach, -⟩ := exists_scanReaches_of_match hmatch
      rw [scanPos_sub_mul_step] at hj
      exact hreach.of_le (by omega)
    · exact scanReaches_of_missing hnone hin
  have hle : bracketsScanned code p0 dir j ≤ j := bracketsScanned_le code p0 dir j
  exact ⟨hreach.one_le_depthAfter le_rfl, depthAfter_le_bracketsScanned code p0 dir j, hle, hle.trans hreach.le_length⟩

end Sys2Proof.Machine

/-! ### Scans from other positions of a scan (43_loop.md section 1)

A scan that starts at a position of another scan counts the same bytes, from another start or backwards. -/

namespace Sys2Proof.Machine

open Sys2Proof

/-- The other direction. -/
def Dir.reverse : Dir → Dir
  | .forward => .backward
  | .backward => .forward

theorem reverse_step (dir : Dir) : dir.reverse.step = -dir.step := by
  cases dir <;> rfl

section
variable {code : List Byte} {p : Int} {dir : Dir}

theorem deltaAt_reverse (code : List Byte) (dir : Dir) (p : Int) :
    deltaAt code dir.reverse p = -deltaAt code dir p := by
  cases hb : codeRead code p with
  | none => simp [deltaAt, hb]
  | some b =>
    rw [deltaAt_of_codeRead hb, deltaAt_of_codeRead hb]
    unfold bracketDelta
    split_ifs <;> simp [reverse_step]

theorem scanPos_scanPos (p : Int) (dir : Dir) (i j : Nat) :
    scanPos (scanPos p dir i) dir j = scanPos p dir (i + 1 + j) := by
  simp only [scanPos]
  push_cast
  ring

theorem scanPos_reverse (p : Int) (dir : Dir) (i j : Nat) :
    scanPos (scanPos p dir (i + 1 + j)) dir.reverse j = scanPos p dir i := by
  simp only [scanPos, reverse_step]
  push_cast
  ring

theorem scanPos_reverse_start (p : Int) (dir : Dir) (k : Nat) : scanPos (scanPos p dir k) dir.reverse k = p := by
  simp only [scanPos, reverse_step]
  ring

/-- Scanning on from index `i` counts what the first scan counts after it. -/
theorem depthAfter_scanPos (code : List Byte) (p : Int) (dir : Dir) (i j : Nat) :
    depthAfter code (scanPos p dir i) dir j =
      1 + depthAfter code p dir (i + 1 + j) - depthAfter code p dir (i + 1) := by
  induction j with
  | zero => simp [depthAfter_zero]
  | succ j ih =>
    rw [depthAfter_succ_eq, ih, scanPos_scanPos, ← Nat.add_assoc, depthAfter_succ_eq code p dir (i + 1 + j)]
    ring

/-- Scanning back from index `k` takes away what the first scan had counted. -/
theorem depthAfter_reverse (code : List Byte) (p : Int) (dir : Dir) {j k : Nat} (hj : j ≤ k) :
    depthAfter code (scanPos p dir k) dir.reverse j = 1 + depthAfter code p dir (k - j) - depthAfter code p dir k := by
  induction j with
  | zero => simp [depthAfter_zero]
  | succ j ih =>
    obtain ⟨i, rfl⟩ : ∃ i, k = i + 1 + j := ⟨k - (j + 1), by omega⟩
    have hbefore : i + 1 + j - j = i + 1 := by omega
    have hafter : i + 1 + j - (j + 1) = i := by omega
    rw [depthAfter_succ_eq, ih (by omega), scanPos_reverse, deltaAt_reverse, hbefore, hafter,
      depthAfter_succ_eq code p dir i]
    ring

/-- A match read backwards: if the scan's start itself counts in its direction, the scan back from the match returns the
start. On the way its counter takes the first scan's values in the other order. -/
theorem matchBracket_reverse {q : Int} (hin : InProgram code p) (hstart : deltaAt code dir p = 1)
    (hmatch : matchBracket code p dir = some q) : matchBracket code q dir.reverse = some p := by
  obtain ⟨k, rfl, hreach, -, hzero⟩ := exists_scanReaches_of_match hmatch
  obtain ⟨hlast, -⟩ := hreach.last_delta hzero
  have hdepth : ∀ j ≤ k, depthAfter code (scanPos p dir k) dir.reverse j = depthAfter code p dir (k - j) := by
    intro j hj
    rw [depthAfter_reverse code p dir hj, hlast]
    ring
  have hback : ScanReaches code (scanPos p dir k) dir.reverse k := by
    intro j hj
    obtain ⟨i, rfl⟩ : ∃ i, k = i + 1 + j := ⟨k - (j + 1), by omega⟩
    rw [scanPos_reverse, hdepth (j + 1) hj]
    exact ⟨(hreach i (by omega)).1, hreach.depthAfter_ne_zero (Nat.sub_le _ _)⟩
  have hend : depthAfter code (scanPos p dir k) dir.reverse (k + 1) = 0 := by
    rw [depthAfter_succ_eq, hdepth k le_rfl, Nat.sub_self, depthAfter_zero, scanPos_reverse_start,
      deltaAt_reverse, hstart]
    rfl
  have hin' : InProgram code (scanPos (scanPos p dir k) dir.reverse k) := by rwa [scanPos_reverse_start]
  rw [hback.matchBracket_found hin' hend, scanPos_reverse_start]

theorem scanPos_sub_scanPos_mul_step (p : Int) (dir : Dir) (i k : Nat) :
    (scanPos p dir k - scanPos p dir i) * dir.step = k - i := by
  cases dir <;> simp [scanPos]
  ring

/-- Every position on the scan's side of its start is a scan position. -/
theorem exists_scanPos_eq {c : Int} (hside : 0 < (c - p) * dir.step) : ∃ i, c = scanPos p dir i := by
  refine ⟨((c - p) * dir.step).toNat - 1, ?_⟩
  cases dir <;> simp only [scanPos, dirStep_forward, dirStep_backward] at hside ⊢ <;> omega

/-- Where the scan from index `i` counts below 0 it has already returned. -/
theorem ScanReaches.lt_of_depthAfter_neg {j m : Nat} (hreach : ScanReaches code p dir m)
    (hzero : depthAfter code p dir (m + 1) = 0) (hneg : depthAfter code p dir j < 0) : m + 1 < j := by
  by_contra hle
  obtain hbefore | rfl : j ≤ m ∨ j = m + 1 := by omega
  · have hpositive : 1 ≤ depthAfter code p dir j := hreach.one_le_depthAfter hbefore
    omega
  · omega

/-- Between a scan's start and its match, a bracket that counts in the scan's direction has its own match before the
scan's: counted from that bracket, the counter at the scan's match is below 0. -/
theorem match_inside_match {c q m : Int} (hmatch : matchBracket code p dir = some q)
    (hafter : 0 < (c - p) * dir.step) (hbefore : 0 < (q - c) * dir.step) (hopen : deltaAt code dir c = 1)
    (hinner : matchBracket code c dir = some m) : 0 < (q - m) * dir.step := by
  obtain ⟨k, rfl, hreach, -, hzero⟩ := exists_scanReaches_of_match hmatch
  obtain ⟨i, rfl⟩ := exists_scanPos_eq hafter
  obtain ⟨j, rfl, hinnerReach, -, hinnerZero⟩ := exists_scanReaches_of_match hinner
  rw [scanPos_sub_scanPos_mul_step] at hbefore
  obtain ⟨r, rfl⟩ : ∃ r, k = i + r := ⟨k - i, by omega⟩
  have hneg : depthAfter code (scanPos p dir i) dir r < 0 := by
    have hpositive : 1 ≤ depthAfter code p dir i := hreach.one_le_depthAfter (Nat.le_add_right i r)
    rw [depthAfter_scanPos, Nat.add_right_comm, hzero, depthAfter_succ_eq, hopen]
    omega
  have hlt : j + 1 < r := hinnerReach.lt_of_depthAfter_neg hinnerZero hneg
  rw [scanPos_scanPos, scanPos_sub_scanPos_mul_step]
  omega

end

/-- Settles O45: `[` counts forward and `]` backward, so each match is read backwards. -/
theorem matchIsAnInvolution : Obligations.MatchIsAnInvolution := by
  refine fun code p q => ⟨fun hread hmatch => ?_, fun hread hmatch => ?_⟩
  · exact matchBracket_reverse (dir := .forward) (byteAt_eq_some hread) (deltaAt_of_codeRead hread) hmatch
  · exact matchBracket_reverse (dir := .backward) (byteAt_eq_some hread) (deltaAt_of_codeRead hread) hmatch

end Sys2Proof.Machine

/-! ### The loop of a matched pair (43_loop.md section 3) -/

namespace Sys2Proof.Machine

open Sys2Proof

/-- `[` at `p` and its match at `q`. -/
structure MatchedPair (code : List Byte) (p q : Int) : Prop where
  opens : codeRead code p = some 0x5B
  matched : matchBracket code p .forward = some q

section
variable {code : List Byte} {p q : Int}

theorem MatchedPair.lt (hpair : MatchedPair code p q) : p < q := by
  obtain ⟨hlt, -⟩ := (matchIsTheOtherBracket code p q).1 hpair.matched
  exact hlt

theorem MatchedPair.closes (hpair : MatchedPair code p q) : codeRead code q = some 0x5D := by
  obtain ⟨-, -, -, hclose⟩ := (matchIsTheOtherBracket code p q).1 hpair.matched
  exact hclose

theorem MatchedPair.back (hpair : MatchedPair code p q) : matchBracket code q .backward = some p :=
  (matchIsAnInvolution code p q).1 hpair.opens hpair.matched

end

theorem fetch_of_codeRead {s : State} {b : Byte} (h : codeRead s.code s.codePtr = some b) :
    fetch s = some (decodeByte b) := by
  rw [fetch, h, Option.map_some]

/-! #### The tests -/

section
variable {s : State} {p q : Int}

theorem MatchedPair.step_at_open (hpair : MatchedPair s.code p q) (hwf : s.config.wf = true)
    (hs : s.status = .running) (hp : s.codePtr = p) : step s = exec .loopOpen s :=
  step_runs hwf hs (fetch_of_codeRead (hp ▸ hpair.opens))

theorem MatchedPair.step_at_close (hpair : MatchedPair s.code p q) (hwf : s.config.wf = true)
    (hs : s.status = .running) (hq : s.codePtr = q) : step s = exec .loopClose s :=
  step_runs hwf hs (fetch_of_codeRead (hq ▸ hpair.closes))

/-- The test on a zero cell leaves the loop: `[` jumps to the match and `]` advances. -/
theorem MatchedPair.step_leaves (hpair : MatchedPair s.code p q) (hwf : s.config.wf = true) (hs : s.status = .running)
    (hat : s.codePtr = p ∨ s.codePtr = q) (hon : onTape s.config s.memPtr)
    (hz : s.mem.read s.memPtr.toNat = 0) : step s = .next { s with codePtr := q + 1 } := by
  obtain hp | hq := hat
  · rw [hpair.step_at_open hwf hs hp]
    exact exec_of_effect (.skipLoop hon hz (hp ▸ hpair.matched)) nofun
  · rw [hpair.step_at_close hwf hs hq, ← hq]
    exact exec_of_effect (.leaveLoop hon hz) nofun

/-- The test on a non-zero cell goes to the body's first byte: `[` advances and `]` jumps back. -/
theorem MatchedPair.step_enters (hpair : MatchedPair s.code p q) (hwf : s.config.wf = true) (hs : s.status = .running)
    (hat : s.codePtr = p ∨ s.codePtr = q) (hon : onTape s.config s.memPtr)
    (hnz : s.mem.read s.memPtr.toNat ≠ 0) : step s = .next { s with codePtr := p + 1 } := by
  obtain hp | hq := hat
  · rw [hpair.step_at_open hwf hs hp, ← hp]
    exact exec_of_effect (.enterLoop hon hnz) nofun
  · rw [hpair.step_at_close hwf hs hq]
    exact exec_of_effect (.repeatLoop hon hnz (hq ▸ hpair.back)) nofun

/-- The test off the tape faults. -/
theorem MatchedPair.step_faults (hpair : MatchedPair s.code p q) (hwf : s.config.wf = true) (hs : s.status = .running)
    (hat : s.codePtr = p ∨ s.codePtr = q) (hoff : ¬ onTape s.config s.memPtr) :
    step s = .next (s.takeFault (.memBounds s.memPtr)) := by
  obtain hp | hq := hat
  · rw [hpair.step_at_open hwf hs hp, execLoopOpen_eq, if_neg hoff]
  · rw [hpair.step_at_close hwf hs hq, execLoopClose_eq, if_neg hoff]

end

/-- Settles O46: the two outcomes of the test, at either bracket. -/
theorem matchedPairTestSteps : Obligations.MatchedPairTestSteps := by
  intro s p q hwf hs hon hopen hmatch hat
  have hpair : MatchedPair s.code p q := ⟨hopen, hmatch⟩
  exact ⟨hpair.step_leaves hwf hs hat hon, hpair.step_enters hwf hs hat hon⟩

/-! #### The body -/

/-- A bracket instruction stands at a byte that counts in its own direction. -/
theorem deltaAt_of_fetch_bracketInstr {s : State} {dir : Dir} (h : fetch s = some (bracketInstr dir)) :
    deltaAt s.code dir s.codePtr = 1 := by
  obtain ⟨b, hb, hdecode⟩ := Option.map_eq_some_iff.mp h
  have hbyte : b = encodeByte (bracketInstr dir) := by rw [← hdecode, encodeByte_decodeByte]
  rw [deltaAt_of_codeRead hb, hbyte]
  cases dir <;> rfl

/-- The match of a bracket in the body of a pair is in the body. -/
theorem MatchedPair.match_inside {code : List Byte} {p q c m : Int} {dir : Dir} (hpair : MatchedPair code p q)
    (hc : p < c ∧ c < q) (hbracket : deltaAt code dir c = 1) (hmatch : matchBracket code c dir = some m) :
    p < m ∧ m < q := by
  obtain ⟨hforward, hbackward⟩ := matchIsTheOtherBracket code c m
  cases dir with
  | forward =>
    obtain ⟨hcm, -⟩ := hforward hmatch
    have hmq : 0 < (q - m) * Dir.forward.step :=
      match_inside_match hpair.matched (by simp; omega) (by simp; omega) hbracket hmatch
    rw [dirStep_forward] at hmq
    omega
  | backward =>
    obtain ⟨hmc, -⟩ := hbackward hmatch
    have hpm : 0 < (p - m) * Dir.backward.step :=
      match_inside_match hpair.back (by simp; omega) (by simp; omega) hbracket hmatch
    rw [dirStep_backward] at hpm
    omega

theorem MatchedPair.step_stays_inside {s t : State} {p q : Int} (hpair : MatchedPair s.code p q)
    (hc : p < s.codePtr ∧ s.codePtr < q) (h : step s = .next t) : p < t.codePtr ∧ t.codePtr ≤ q := by
  obtain ⟨-, ⟨-, rfl⟩ | ⟨-, -, rfl⟩ | ⟨-, -, i, hfetch, hexec⟩⟩ := step_next h
  · omega
  · rw [halt_codePtr]
    omega
  · obtain hstay | hadvance | ⟨dir, m, rfl, hmatch, hjump⟩ := effect_codePtr (exec_effect hexec)
    · omega
    · omega
    · have hm : p < m ∧ m < q := hpair.match_inside hc (deltaAt_of_fetch_bracketInstr hfetch) hmatch
      omega

/-- Settles O57: a step stays, advances, or goes one past a match that lies in the body. -/
theorem loopBodyStaysInside : Obligations.LoopBodyStaysInside :=
  fun _ _ _ _ hopen hmatch hc _ h _ => MatchedPair.step_stays_inside ⟨hopen, hmatch⟩ hc h

/-! #### First visits -/

/-- In the first `k` states of the run control is not at `pos`. -/
def AvoidsFor (pos : Int) (k : Nat) (s : State) : Prop :=
  ∀ (m : Nat) (v : State), m < k → runFor m s = .next v → v.codePtr ≠ pos

section
variable {pos : Int} {k : Nat} {s u : State}

theorem avoidsFor_zero (pos : Int) (s : State) : AvoidsFor pos 0 s := fun _ _ hm => absurd hm (Nat.not_lt_zero _)

theorem AvoidsFor.cons (hs : s.codePtr ≠ pos) (h : step s = .next u) (hu : AvoidsFor pos k u) :
    AvoidsFor pos (k + 1) s := by
  intro m v hm hv
  cases m with
  | zero =>
    cases hv
    exact hs
  | succ m =>
    rw [runFor_succ m h] at hv
    exact hu m v (Nat.lt_of_succ_lt_succ hm) hv

/-- A later part of the run avoids what the run avoids. -/
theorem AvoidsFor.drop {n : Nat} (hs : AvoidsFor pos (n + k) s) (h : runFor n s = .next u) : AvoidsFor pos k u := by
  intro m v hm hv
  refine hs (n + m) v (Nat.add_lt_add_left hm n) ?_
  rw [runFor_add, h, andThen_next, hv]

/-- Only an empty run avoids the position it starts at. -/
theorem AvoidsFor.eq_zero_of_at (hs : AvoidsFor pos k s) (hat : s.codePtr = pos) : k = 0 := by
  by_contra hk
  exact hs 0 s (Nat.pos_of_ne_zero hk) rfl hat

end

/-! #### The executions of the loop are the core's runs -/

section
variable {p q : Int}

/-- Every execution of the loop is a run: the tests are steps, and the bodies are runs already. -/
theorem LoopRuns.exists_runFor {s t : State} (h : LoopRuns p q s t) (hpair : MatchedPair s.code p q)
    (hwf : s.config.wf = true) (hs : s.status = .running) (hat : s.codePtr = p ∨ s.codePtr = q) :
    ∃ k, runFor k s = .next t := by
  induction h with
  | leave hon hz => exact ⟨1, by rw [runFor_one, hpair.step_leaves hwf hs hat hon hz]⟩
  | again n hon hnz hbody hu huq _ _ ih =>
    obtain ⟨hcode, -, hconfig⟩ := runFor_sameLoad hbody
    obtain ⟨k, hk⟩ := ih (by rwa [hcode]) (by rwa [hconfig]) hu (.inr huq)
    refine ⟨n + k + 1, ?_⟩
    rw [runFor_succ _ (hpair.step_enters hwf hs hat hon hnz), runFor_add, hbody, andThen_next, hk]

/-- A run from the body to `q + 1` is a run to the first visit of `q`, still RUNNING, and a run from `q`: the body is left
at `q` only. -/
theorem MatchedPair.exists_first_visit {k : Nat} {s t : State} (hpair : MatchedPair s.code p q)
    (hwf : s.config.wf = true) (hc : p < s.codePtr ∧ s.codePtr ≤ q) (h : runFor k s = .next t)
    (ht : t.status = .running) (hend : t.codePtr = q + 1) :
    ∃ n r u, k = n + r ∧ runFor n s = .next u ∧ runFor r u = .next t ∧ u.codePtr = q ∧ u.status = .running ∧
      AvoidsFor q n s := by
  induction k generalizing s with
  | zero =>
    cases h
    omega
  | succ k ih =>
    have hs : s.status = .running := running_of_runFor_running hwf h ht
    by_cases hq : s.codePtr = q
    · exact ⟨0, k + 1, s, (Nat.zero_add _).symm, rfl, h, hq, hs, avoidsFor_zero q s⟩
    · obtain ⟨v, hv, hrest⟩ := runFor_succ_next h
      obtain ⟨hcode, -, hconfig⟩ := step_sameLoad hv
      have hcv : p < v.codePtr ∧ v.codePtr ≤ q := hpair.step_stays_inside (by omega) hv
      obtain ⟨n, r, u, rfl, hn, hr, huq, hu, havoids⟩ := ih (by rwa [hcode]) (by rwa [hconfig]) hcv hrest
      exact ⟨n + 1, r, u, Nat.add_right_comm n r 1, (runFor_succ n hv).trans hn, hr, huq, hu, .cons hq hv havoids⟩

/-- A run from a bracket of the pair to its first visit of `q + 1` is an execution of the loop: its first step is the
test, and after a body the rest is such a run from `q`. -/
theorem MatchedPair.loopRuns_of_runFor {k : Nat} {s t : State} (hpair : MatchedPair s.code p q)
    (hwf : s.config.wf = true) (hat : s.codePtr = p ∨ s.codePtr = q) (h : runFor k s = .next t)
    (ht : t.status = .running) (hend : t.codePtr = q + 1) (havoids : AvoidsFor (q + 1) k s) : LoopRuns p q s t := by
  have hlt : p < q := hpair.lt
  induction k using Nat.strong_induction_on generalizing s with
  | _ k ih =>
  cases k with
  | zero =>
    cases h
    omega
  | succ k =>
    have hs : s.status = .running := running_of_runFor_running hwf h ht
    obtain ⟨u, hu, hrest⟩ := runFor_succ_next h
    obtain ⟨hcode, -, hconfig⟩ := step_sameLoad hu
    have hwfu : u.config.wf = true := by rwa [hconfig]
    have hu_avoids : AvoidsFor (q + 1) k u :=
      AvoidsFor.drop (n := 1) (by rwa [Nat.add_comm]) (by rw [runFor_one, hu])
    by_cases hon : onTape s.config s.memPtr
    · by_cases hz : s.mem.read s.memPtr.toNat = 0
      · rw [hpair.step_leaves hwf hs hat hon hz] at hu
        cases hu
        obtain rfl : k = 0 := hu_avoids.eq_zero_of_at rfl
        cases hrest
        exact .leave hon hz
      · rw [hpair.step_enters hwf hs hat hon hz] at hu
        cases hu
        obtain ⟨n, r, v, rfl, hbody, hr, hvq, hv, hfirst⟩ :=
          MatchedPair.exists_first_visit (s := { s with codePtr := p + 1 }) hpair hwfu ⟨Int.lt_succ p, hlt⟩ hrest ht
            hend
        obtain ⟨hcodev, -, hconfigv⟩ := runFor_sameLoad hbody
        have hloop : LoopRuns p q v t :=
          ih r (by omega) (by rwa [hcodev]) (by rwa [hconfigv]) (.inr hvq) hr (hu_avoids.drop hbody)
        exact .again n hon hz hbody hv hvq hfirst hloop
    · rw [hpair.step_faults hwf hs hat hon] at hu
      cases hu
      have hfault : Status.fault = .running := running_of_runFor_running hwfu hrest ht
      cases hfault

end

/-- Settles O58: executions are runs by induction on the execution, runs are executions by induction on their length. -/
theorem matchedPairRunsAsWhile : Obligations.MatchedPairRunsAsWhile := by
  intro s t p q hwf hs hopen hmatch hat
  have hpair : MatchedPair s.code p q := ⟨hopen, hmatch⟩
  exact ⟨fun hloop => hloop.exists_runFor hpair hwf hs hat, fun _ => hpair.loopRuns_of_runFor hwf hat⟩

end Sys2Proof.Machine

/-! ### Laws of sequences (41_pointer.md, 42_cell_arith.md, 44_io.md) -/

namespace Sys2Proof.Machine

open Sys2Proof

theorem execAll_cons_eq (i : Instr) (rest : List Instr) (s : State) :
    execAll (i :: rest) s = andThen (exec i s) (execAll rest) := rfl

theorem execAll_cons {i : Instr} {s u : State} (rest : List Instr) (h : exec i s = .next u) :
    execAll (i :: rest) s = execAll rest u := by
  rw [execAll_cons_eq, h, andThen_next]

/-- Instructions do not leave FAULT. -/
theorem execAll_fault {program : List Instr} {s t : State} (hs : s.status = .fault)
    (h : execAll program s = .next t) : t.status = .fault := by
  induction program generalizing s with
  | nil =>
    cases h
    exact hs
  | cons i rest ih =>
    obtain ⟨u, hu, hrest⟩ := execAll_cons_next h
    obtain hkept | ⟨what, rfl⟩ := exec_commits_or_takesFault hu
    · exact ih (hkept.trans hs) hrest
    · exact ih (takeFault_status s what) hrest

/-! #### The cursor -/

/-- The `>` minus the `<` among the instructions. -/
def cursorShift (program : List Instr) : Int := (program.count .ptrInc : Int) - program.count .ptrDec

theorem cursorShift_nil : cursorShift [] = 0 := rfl

theorem cursorShift_cons (i : Instr) (rest : List Instr) :
    cursorShift (i :: rest) = cursorShift [i] + cursorShift rest := by
  simp only [cursorShift, List.count_cons, List.count_nil]
  push_cast
  ring

/-- A committing instruction moves the cursor by what it counts. -/
theorem effect_cursorShift {i : Instr} {s t : State} (h : Effect i s t) (ht : t.status ≠ .fault) :
    t.memPtr = s.memPtr + cursorShift [i] := by
  cases h with
  | moveLeft | moveRight => rfl
  | limitLeft | limitRight | offTape | noClose | noOpen | limitOutput => exact absurd rfl ht
  | _ => exact (Int.add_zero s.memPtr).symm

theorem execAll_cursorShift {program : List Instr} {s t : State} (h : execAll program s = .next t)
    (ht : t.status ≠ .fault) : t.memPtr = s.memPtr + cursorShift program := by
  induction program generalizing s with
  | nil =>
    cases h
    rw [cursorShift_nil, Int.add_zero]
  | cons i rest ih =>
    obtain ⟨u, hu, hrest⟩ := execAll_cons_next h
    have hcommits : u.status ≠ .fault := fun hfault => ht (execAll_fault hfault hrest)
    rw [ih hrest, effect_cursorShift (exec_effect hu) hcommits, cursorShift_cons i rest, Int.add_assoc]

/-- Settles O47, by induction on the instructions: none of them faulted, so each moved the cursor by its own count. -/
theorem cursorCountsPointerMoves : Obligations.CursorCountsPointerMoves := by
  intro program s t _ h ht
  rw [execAll_cursorShift h ht, cursorShift, Int.add_sub_assoc]

/-- With an unbounded `PTR_RANGE` a pointer move or a NOP commits. -/
theorem exec_cursorShift {i : Instr} {s : State} (hrange : s.config.ptrRange = none)
    (hi : i = .ptrDec ∨ i = .ptrInc ∨ ∃ b, i = .nop b) :
    exec i s = .next { s with memPtr := s.memPtr + cursorShift [i], codePtr := s.codePtr + 1 } := by
  have hfits : ∀ p, cursorFits s.config p = true := fun p =>
    (cursorFits_iff s.config p).mpr fun values hvalues => by simp [hrange] at hvalues
  obtain rfl | rfl | ⟨b, rfl⟩ := hi
  · exact exec_of_effect (.moveLeft (hfits _)) nofun
  · exact exec_of_effect (.moveRight (hfits _)) nofun
  · have hstay : s.memPtr + cursorShift [.nop b] = s.memPtr := Int.add_zero s.memPtr
    rw [hstay]
    exact execNop_eq b s

theorem execAll_of_cursorMoves {program : List Instr} {s : State} (hrange : s.config.ptrRange = none)
    (hall : ∀ i ∈ program, i = .ptrDec ∨ i = .ptrInc ∨ ∃ b, i = .nop b) :
    execAll program s =
      .next { s with memPtr := s.memPtr + cursorShift program, codePtr := s.codePtr + program.length } := by
  induction program generalizing s with
  | nil => simp [execAll, cursorShift_nil]
  | cons i rest ih =>
    obtain ⟨hi, hrest⟩ := List.forall_mem_cons.mp hall
    have hmoved := ih (s := { s with memPtr := s.memPtr + cursorShift [i], codePtr := s.codePtr + 1 }) hrange hrest
    rw [execAll_cons rest (exec_cursorShift hrange hi), hmoved, cursorShift_cons i rest, List.length_cons]
    simp only [Host.Outcome.next.injEq, State.mk.injEq, true_and, and_true]
    omega

/-- Settles O48, by induction on the instructions: each commits and moves the cursor by its own count. -/
theorem pointerMovesNeverFault : Obligations.PointerMovesNeverFault := by
  intro program s hrange hall
  rw [execAll_of_cursorMoves hrange hall, cursorShift, ← Int.add_sub_assoc]

/-! #### The current cell -/

/-- On the tape the instruction adds `d` to the current cell modulo 256, advances and does nothing else. -/
def AddsToCell (i : Instr) (d : Int) : Prop :=
  ∀ s : State, onTape s.config s.memPtr →
    ∃ m, exec i s = .next { s with mem := m, codePtr := s.codePtr + 1 } ∧
      ((m.read s.memPtr.toNat).toNat : Int) = ((s.mem.read s.memPtr.toNat).toNat + d : Int) % 256 ∧
      ∀ a, a ≠ s.memPtr.toNat → m.read a = s.mem.read a

theorem addsToCell_cellInc : AddsToCell .cellInc 1 := fun s hon =>
  (cellStore_commits_or_faults (byte_add_one_toNat _) (execCellInc_eq s)).1 hon

theorem addsToCell_cellDec : AddsToCell .cellDec (-1) := fun s hon =>
  (cellStore_commits_or_faults (byte_sub_one_toNat _) (execCellDec_eq s)).1 hon

/-- `k` executions of such an instruction add `k * d` modulo 256. -/
theorem AddsToCell.replicate {i : Instr} {d : Int} (hadds : AddsToCell i d) (k : Nat) {s : State}
    (hon : onTape s.config s.memPtr) :
    ∃ m, execAll (List.replicate k i) s = .next { s with mem := m, codePtr := s.codePtr + k } ∧
      ((m.read s.memPtr.toNat).toNat : Int) = ((s.mem.read s.memPtr.toNat).toNat + k * d : Int) % 256 ∧
      ∀ a, a ≠ s.memPtr.toNat → m.read a = s.mem.read a := by
  induction k generalizing s with
  | zero =>
    have hbyte : (s.mem.read s.memPtr.toNat).toNat < 256 := (s.mem.read s.memPtr.toNat).isLt
    refine ⟨s.mem, by simp [execAll], ?_, fun _ _ => rfl⟩
    rw [Nat.cast_zero, Int.zero_mul, Int.add_zero]
    omega
  | succ k ih =>
    obtain ⟨m₁, hfirst, hcell₁, hother₁⟩ := hadds s hon
    obtain ⟨m, hrest, hcell, hother⟩ := ih (s := { s with mem := m₁, codePtr := s.codePtr + 1 }) hon
    refine ⟨m, ?_, ?_, fun a ha => (hother a ha).trans (hother₁ a ha)⟩
    · rw [List.replicate_succ, execAll_cons _ hfirst, hrest]
      simp only [Host.Outcome.next.injEq, State.mk.injEq, true_and, and_true]
      omega
    · rw [hcell, hcell₁, Int.emod_add_emod]
      congr 1
      push_cast
      ring

/-- Settles O49: `+` adds 1 and `-` adds -1. -/
theorem repeatedCellArithmetic : Obligations.RepeatedCellArithmetic := by
  intro k s hon
  obtain ⟨m, hexec, hcell, hother⟩ := addsToCell_cellInc.replicate k hon
  obtain ⟨m', hexec', hcell', hother'⟩ := addsToCell_cellDec.replicate k hon
  rw [Int.mul_one] at hcell
  rw [Int.mul_neg_one, ← Int.sub_eq_add_neg] at hcell'
  exact ⟨⟨m, hexec, hcell, hother⟩, m', hexec', hcell', hother'⟩

/-! #### The input stream -/

/-- One IN on the tape, with input left or exhausted. -/
theorem exec_input_onTape {s : State} (hon : onTape s.config s.memPtr) (h0 : 0 ≤ s.inputPtr)
    (h1 : s.inputPtr ≤ s.inputs.length) :
    ∃ m, exec .input s =
        .next { s with mem := m, inputPtr := min (s.inputPtr + 1) s.inputs.length, codePtr := s.codePtr + 1 } ∧
      m.read s.memPtr.toNat = s.inputs.getD s.inputPtr.toNat 0 ∧
      ∀ a, a ≠ s.memPtr.toNat → m.read a = s.mem.read a := by
  obtain ⟨-, -, hinput⟩ := inStoresNextInputOrZero
  obtain ⟨hreads, hexhausted⟩ := (hinput s h0).1 hon
  obtain hremains | hend := Int.lt_or_le s.inputPtr s.inputs.length
  · obtain ⟨v, hv⟩ : ∃ v, s.inputs[s.inputPtr.toNat]? = some v := ⟨_, List.getElem?_eq_getElem (by omega)⟩
    obtain ⟨m, hexec, hcell, hother⟩ := hreads v hv
    rw [Int.min_eq_left hremains, List.getD_eq_getElem?_getD, hv]
    exact ⟨m, hexec, hcell, hother⟩
  · obtain ⟨m, hexec, hcell, hother⟩ := hexhausted hend
    have hstay : min (s.inputPtr + 1) (s.inputs.length : Int) = s.inputPtr := by omega
    rw [hstay, List.getD_eq_default _ _ (by omega)]
    exact ⟨m, hexec, hcell, hother⟩

/-- Reading on after one IN: where no byte is left, the later indices hold none either. -/
theorem inputs_getD_after_input {inputs : List Byte} {i : Int} (h0 : 0 ≤ i) (k : Nat) :
    inputs.getD ((min (i + 1) inputs.length).toNat + k) 0 = inputs.getD (i.toNat + (k + 1)) 0 := by
  obtain hremains | hend := Int.lt_or_le i inputs.length
  · congr 1
    omega
  · rw [List.getD_eq_default _ _ (by omega), List.getD_eq_default _ _ (by omega)]

/-- Settles O50, by induction on the executions after the first; one IN leaves the premises true. -/
theorem repeatedInput : Obligations.RepeatedInput := by
  intro k
  induction k with
  | zero =>
    intro s hon h0 h1
    obtain ⟨m, hexec, hcell, hother⟩ := exec_input_onTape hon h0 h1
    refine ⟨m, ?_, hcell, hother⟩
    rw [List.replicate_one, execAll_cons [] hexec, Nat.cast_zero, Int.add_zero, Int.add_zero]
    rfl
  | succ k ih =>
    intro s hon h0 h1
    obtain ⟨m₁, hfirst, -, hother₁⟩ := exec_input_onTape hon h0 h1
    obtain ⟨m, hrest, hcell, hother⟩ :=
      ih { s with mem := m₁, inputPtr := min (s.inputPtr + 1) s.inputs.length, codePtr := s.codePtr + 1 } hon
        (by simp only; omega) (by simp only; omega)
    refine ⟨m, ?_, hcell.trans (inputs_getD_after_input h0 k), fun a ha => (hother a ha).trans (hother₁ a ha)⟩
    rw [List.replicate_succ, execAll_cons _ hfirst, hrest]
    simp only [Host.Outcome.next.injEq, State.mk.injEq, true_and, and_true]
    omega

end Sys2Proof.Machine

/-! ### Unread input (44_io.md) -/

namespace Sys2Proof.Machine

open Sys2Proof

/-- The state with another input. -/
def State.setInputs (s : State) (other : List Byte) : State := { s with inputs := other }

/-- `other` differs from `inputs` at no index below `n`, and not in length. -/
def AgreesBelow (n : Nat) (other inputs : List Byte) : Prop :=
  other.length = inputs.length ∧ other.take n = inputs.take n

theorem byteAt_take (bytes : List Byte) {n : Nat} {i : Int} (hi : i < n) :
    byteAt (bytes.take n) i = byteAt bytes i := by
  unfold byteAt
  split
  · exact List.getElem?_take_of_lt (by omega)
  · rfl

theorem AgreesBelow.byteAt_eq {n : Nat} {other inputs : List Byte} (h : AgreesBelow n other inputs) {i : Int}
    (hi : i < n) : byteAt other i = byteAt inputs i := by
  obtain ⟨-, htake⟩ := h
  rw [← byteAt_take other hi, htake, byteAt_take inputs hi]

section
variable {n : Nat} {s t : State} {other : List Byte}

/-- With another input that agrees as far as it is read, an instruction goes the same way. -/
theorem effect_setInputs {i : Instr} (hagree : AgreesBelow n other s.inputs) (h : Effect i s t) (ht : t.inputPtr ≤ n) :
    Effect i (s.setInputs other) (t.setInputs other) := by
  cases h with
  | readInput hon hv => exact .readInput hon ((hagree.byteAt_eq ht).trans hv)
  | exhausted hon hend => exact .exhausted hon (by obtain ⟨hlength, -⟩ := hagree; rw [← hlength] at hend; exact hend)
  | moveLeft hfits => exact .moveLeft hfits
  | moveRight hfits => exact .moveRight hfits
  | limitLeft hleaves => exact .limitLeft hleaves
  | limitRight hleaves => exact .limitRight hleaves
  | offTape hi hoff => exact .offTape hi hoff
  | decrement hon => exact .decrement hon
  | increment hon => exact .increment hon
  | skipLoop hon hz hq => exact .skipLoop hon hz hq
  | noClose hon hz hnone => exact .noClose hon hz hnone
  | enterLoop hon hnz => exact .enterLoop hon hnz
  | repeatLoop hon hnz hq => exact .repeatLoop hon hnz hq
  | noOpen hon hnz hnone => exact .noOpen hon hnz hnone
  | leaveLoop hon hz => exact .leaveLoop hon hz
  | append hon hroom => exact .append hon hroom
  | limitOutput hon hfull => exact .limitOutput hon hfull
  | skip => exact .skip

theorem step_setInputs (hagree : AgreesBelow n other s.inputs) (h : step s = .next t) (ht : t.inputPtr ≤ n) :
    step (s.setInputs other) = .next (t.setInputs other) := by
  obtain ⟨hwf, ⟨hquiet, rfl⟩ | ⟨hs, hend, rfl⟩ | ⟨hs, -, i, hfetch, hexec⟩⟩ := step_next h
  · exact step_quiet (s := t.setInputs other) hwf hquiet
  · exact step_atEnd (s := s.setInputs other) hwf hs hend
  · rw [step_runs (s := s.setInputs other) hwf hs hfetch]
    have h0 : i = .input → 0 ≤ s.inputPtr := inputPtr_nonneg_of_exec hexec
    exact exec_of_effect (effect_setInputs hagree (exec_effect hexec) ht) h0

theorem runFor_setInputs {k : Nat} (hagree : AgreesBelow n other s.inputs) (h : runFor k s = .next t)
    (ht : t.inputPtr ≤ n) : runFor k (s.setInputs other) = .next (t.setInputs other) := by
  induction k generalizing s with
  | zero =>
    cases h
    rfl
  | succ k ih =>
    obtain ⟨u, hu, hrest⟩ := runFor_succ_next h
    obtain ⟨-, hinputs, -⟩ := step_sameLoad hu
    obtain ⟨hle, -⟩ := runFor_inputPtr hrest
    rw [runFor_succ k (step_setInputs hagree hu (hle.trans ht))]
    exact ih (by rwa [hinputs]) hrest

end

/-- Settles O55, step by step: the input pointer never falls, so every step of the run reads below `n` only. -/
theorem unreadInputHasNoInfluence : Obligations.UnreadInputHasNoInfluence :=
  fun _ _ _ _ _ hlength htake => runFor_setInputs ⟨hlength, htake⟩

end Sys2Proof.Machine
